-- ==== Sys2Proof/Word.lean ====
section
/-! DEFINITION. The word types of the machine (00_scope.md rules R6 and R8): bytes, instruction words, addresses and
register indices. -/

namespace Sys2Proof

/-- An 8-bit unsigned value: a register's, a cell's or the pc's contents (R6, R8). -/
abbrev Byte := BitVec 8

/-- The 16-bit instruction word (R80). -/
abbrev Word := BitVec 16

/-- An 8-bit memory address, 0x00 to 0xFF (R50). -/
abbrev Addr := BitVec 8

/-- A general register's index, 0 to 15 (R20). -/
abbrev RegIdx := Fin 16

end Sys2Proof
end

