-- ==== Sys2Proof/Config.lean ====
section
/-! DEFINITION. The construction parameters of 00_scope.md rule R7 and the one free value the spec leaves (the text of a
behaviour's description, 93_implementation_defined.md I8). -/

namespace Sys2Proof

/-- F8_RANGE_POLICY (R7, R208): how the mini-float encoder treats values outside the normal band. -/
inductive F8RangePolicy where
  | bounded
  | clamp
  | wrap
deriving DecidableEq, Repr

/-- F8_RANGE_POLICY's default, `Bounded` (R7, D7). -/
def F8RangePolicy.standard : F8RangePolicy := .bounded

/-- The behaviours a dispatch slot may name: the closed list of R7, and `other`, which stands for a collaborator's own
behaviour, outside this spec (R12, R87). -/
inductive Behaviour where
  | nothing
  | load1
  | load2
  | store
  | move
  | add1
  | add2
  | or
  | and
  | xor
  | rotate
  | jump
  | halt
  | unused
  /-- A behaviour outside the closed list of R7. A table that holds one is refused at construction: DESIGN CHOICE (log 2), safe. -/
  | other (which : Nat)
deriving DecidableEq, Repr

/-- DISPATCH_TABLE (R7, R29): sixteen entries indexed by the opcode, fixed at construction. -/
abbrev DispatchTable := Vector Behaviour 16

/-- The standard dispatch table (R86), the only one the spec gives a meaning to. -/
def DispatchTable.standard : DispatchTable :=
  #v[.nothing, .load1, .load2, .store, .move, .add1, .add2, .or,
     .and, .xor, .rotate, .jump, .halt, .unused, .unused, .unused]

/-- POWER_ON_STATE (R7, R302). `unspecified` carries the free draw: one byte for each register, for the pc and for each cell;
a claim about a machine so constructed is a claim for every draw. -/
inductive PowerOn where
  | zero
  | unspecified (regs : Vector Byte 16) (pc : Byte) (cells : Vector Byte 256)
deriving DecidableEq, Repr

/-- POWER_ON_STATE's default, `Zero` (R7, R302, D1). -/
def PowerOn.standard : PowerOn := .zero

/-- LOAD_START's default (R7, R306). -/
def loadStartDefault : Addr := 0

/-- The human-readable description of the behaviour decoded from the word `ir` at the address `ia`. The spec gives no text
for any behaviour (I8: any value), so nothing is known of it: a free value (log 12). It affects no state (R281). -/
opaque Config.behaviourDescription : Word → Addr → String

end Sys2Proof
end

