-- ==== Sys2Proof/Syntax.lean ====
section
/-! DEFINITION. The instruction set: one constructor per row of spec/opcode_table.json (30_encoding.md rules R84 and R86), and
the decoded instruction's positional fields (R81). -/

namespace Sys2Proof

/-- The sixteen instructions. Operand fields have the width their encoding gives them, so every term can be encoded. The bits
that R84 marks ignored are kept, so that decoding loses nothing; no meaning reads them (R88; DESIGN CHOICE, log 14, safe). -/
inductive Instr where
  /-- Opcode 0, no effect (R240). -/
  | nothing (ignored : BitVec 12)
  /-- Opcode 1, `x[r] <- mem[xy]` (R140). -/
  | load1 (r : RegIdx) (xy : Addr)
  /-- Opcode 2, `x[r] <- xy` (R143). -/
  | load2 (r : RegIdx) (xy : Byte)
  /-- Opcode 3, `mem[xy] <- x[r]`, with the screen at address 0x00 (R146, R147). -/
  | store (r : RegIdx) (xy : Addr)
  /-- Opcode 4, `x[t] <- x[s]` (R150). -/
  | move (ignored : BitVec 4) (s t : RegIdx)
  /-- Opcode 5, integer add (R170). -/
  | add1 (r s t : RegIdx)
  /-- Opcode 6, mini-float add (R220). -/
  | add2 (r s t : RegIdx)
  /-- Opcode 7, bitwise or (R173). -/
  | or (r s t : RegIdx)
  /-- Opcode 8, bitwise and (R175). -/
  | and (r s t : RegIdx)
  /-- Opcode 9, bitwise exclusive or (R177). -/
  | xor (r s t : RegIdx)
  /-- Opcode 10, rotate `x[r]` right by the literal `t` modulo 8 (R179). -/
  | rotate (r : RegIdx) (ignored t : BitVec 4)
  /-- Opcode 11, jump if `x[r] == x[0]` (R243). -/
  | jump (r : RegIdx) (xy : Addr)
  /-- Opcode 12, halt (R247). -/
  | halt (ignored : BitVec 12)
  /-- Opcode 13, reserved: halts (R249). -/
  | unused13 (ignored : BitVec 12)
  /-- Opcode 14, reserved: halts (R249). -/
  | unused14 (ignored : BitVec 12)
  /-- Opcode 15, reserved: halts (R249). -/
  | unused15 (ignored : BitVec 12)
deriving DecidableEq, Repr

/-- The behaviour an instruction runs (R86). -/
def Instr.behaviour : Instr → Behaviour
  | .nothing _ => .nothing
  | .load1 _ _ => .load1
  | .load2 _ _ => .load2
  | .store _ _ => .store
  | .move _ _ _ => .move
  | .add1 _ _ _ => .add1
  | .add2 _ _ _ => .add2
  | .or _ _ _ => .or
  | .and _ _ _ => .and
  | .xor _ _ _ => .xor
  | .rotate _ _ _ => .rotate
  | .jump _ _ => .jump
  | .halt _ => .halt
  | .unused13 _ => .unused
  | .unused14 _ => .unused
  | .unused15 _ => .unused

/-- The decoded instruction's fields (R81): `op`, `r`, `s`, `t` and `xy` are the document's opcode, operand1, operand2,
operand3 and operandXY. -/
structure Fields where
  op : BitVec 4
  r  : BitVec 4
  s  : BitVec 4
  t  : BitVec 4
  xy : BitVec 8
deriving DecidableEq, Repr

end Sys2Proof
end

