-- ==== Sys2Proof/WellFormed.lean ====
section
/-! DEFINITION. What the spec requires of a term before the machine may use it: the invariant between a decoded instruction's
fields (R81), and the dispatch table's contents (R87). An `Instr` needs no check of its own: each operand has the width of
its encoded field, and R83 and R88 make every value of every field legal. -/

namespace Sys2Proof

/-- R81's invariant, quoted there: `operandXY == (operand2 << 4) | operand3`. -/
def Fields.wellFormed (f : Fields) : Bool := f.xy == f.s ++ f.t

/-- The table is the one this spec gives a meaning to (R12, R86). A machine with any other is refused at construction (R87). -/
def DispatchTable.wellFormed (d : DispatchTable) : Bool := d == DispatchTable.standard

end Sys2Proof
end

