-- ==== Sys2Proof/Decode.lean ====
section
/-! DEFINITION. Decoding and encoding (30_encoding.md rules R80 to R88). Every 16-bit word is one instruction (R85). -/

namespace Sys2Proof

/-- The only way decoding can fail: fewer than the two bytes an instruction has (R80). No word is rejected (R85). -/
inductive DecodeError where
  /-- Fewer than two bytes were given. The machine's own fetch always gives two (R111). Safe. -/
  | truncated
deriving DecidableEq, Repr

/-- The fields of an instruction word, pure bit extractions (R81). -/
def fieldsOf (w : Word) : Fields where
  op := w.extractLsb' 12 4
  r := w.extractLsb' 8 4
  s := w.extractLsb' 4 4
  t := w.extractLsb' 0 4
  xy := w.extractLsb' 0 8

/-- The instruction a word stands for under the standard dispatch table (R84, R86, R112). -/
def decodeWord (w : Word) : Instr :=
  let f := fieldsOf w
  let rest := w.extractLsb' 0 12
  match f.op with
  | 0 => .nothing rest
  | 1 => .load1 f.r.toFin f.xy
  | 2 => .load2 f.r.toFin f.xy
  | 3 => .store f.r.toFin f.xy
  | 4 => .move f.r f.s.toFin f.t.toFin
  | 5 => .add1 f.r.toFin f.s.toFin f.t.toFin
  | 6 => .add2 f.r.toFin f.s.toFin f.t.toFin
  | 7 => .or f.r.toFin f.s.toFin f.t.toFin
  | 8 => .and f.r.toFin f.s.toFin f.t.toFin
  | 9 => .xor f.r.toFin f.s.toFin f.t.toFin
  | 10 => .rotate f.r.toFin f.s f.t
  | 11 => .jump f.r.toFin f.xy
  | 12 => .halt rest
  | 13 => .unused13 rest
  | 14 => .unused14 rest
  | _ => .unused15 rest   -- 15, the one value left of the four bits

/-- The word of two consecutive bytes, the byte at the lower address first: big-endian (R53, R82). -/
def wordOfBytes (hi lo : Byte) : Word := hi ++ lo

/-- Decode the first instruction of a byte string and give back the rest. Every instruction has two bytes (R80). -/
def decode : List Byte → Except DecodeError (Instr × List Byte)
  | hi :: lo :: rest => .ok (decodeWord (wordOfBytes hi lo), rest)
  | _ => .error .truncated

/-- A register index as its 4-bit field. -/
def regField (r : RegIdx) : BitVec 4 := BitVec.ofFin r

/-- The word of an instruction (R84, R86): the opcode nibble, then the operand fields. -/
def encode : Instr → Word
  | .nothing ign => 0x0#4 ++ ign
  | .load1 r xy => 0x1#4 ++ (regField r ++ xy)
  | .load2 r xy => 0x2#4 ++ (regField r ++ xy)
  | .store r xy => 0x3#4 ++ (regField r ++ xy)
  | .move ign s t => 0x4#4 ++ (ign ++ regField s ++ regField t)
  | .add1 r s t => 0x5#4 ++ (regField r ++ regField s ++ regField t)
  | .add2 r s t => 0x6#4 ++ (regField r ++ regField s ++ regField t)
  | .or r s t => 0x7#4 ++ (regField r ++ regField s ++ regField t)
  | .and r s t => 0x8#4 ++ (regField r ++ regField s ++ regField t)
  | .xor r s t => 0x9#4 ++ (regField r ++ regField s ++ regField t)
  | .rotate r ign t => 0xA#4 ++ (regField r ++ ign ++ t)
  | .jump r xy => 0xB#4 ++ (regField r ++ xy)
  | .halt ign => 0xC#4 ++ ign
  | .unused13 ign => 0xD#4 ++ ign
  | .unused14 ign => 0xE#4 ++ ign
  | .unused15 ign => 0xF#4 ++ ign

/-- The two bytes of a word in memory order, high byte first (R53, R82). -/
def bytesOfWord (w : Word) : List Byte := [w.extractLsb' 8 8, w.extractLsb' 0 8]

/-- An instruction's bytes in memory order. -/
def encodeBytes (i : Instr) : List Byte := bytesOfWord (encode i)

/-- The instruction word of an opcode-table row's `nbits` bits `w`; the bits above `nbits` are zero (log 21). -/
def tableWord (nbits w : Nat) : Word := BitVec.ofNat 16 (w % 2 ^ nbits)

/-- The instruction the decoder reads from a row's bits, laid out in memory order. -/
def decodeTableWord (nbits w : Nat) : Option Instr :=
  match decode (bytesOfWord (tableWord nbits w)) with
  | .ok (i, _) => some i
  | .error _ => none

end Sys2Proof
end

