-- ==== Sys2Proof/Machine/State.lean ====
section
/-! DEFINITION. The machine's state (10_state.md), its reset value (R33, R300), and the reasons an operation can stop. -/

namespace Sys2Proof.Machine

/-- The sequencer state `seq` (R25). -/
inductive Seq where
  | idle
  | running
  | halted
deriving DecidableEq, Repr

/-- The halt cause `hcause` (R26). -/
inductive HaltCause where
  | none
  | haltInstr
  | unusedOpcode
deriving DecidableEq, Repr

/-- One screen event (R28). -/
inductive ScreenEvent where
  | write (v : Byte)
  | clear
deriving DecidableEq, Repr

/-- Memory (R27, R50): (address, byte) pairs in canonical form (`Memory.wf`). An unlisted address reads as
`Memory.unlisted`. -/
abbrev Memory := List Host.Cell

/-- The whole state. -/
structure State where
  /-- The general registers R0 to R15 (R20). -/
  x : Vector Byte 16
  /-- The program counter (R23). -/
  pc : Addr
  /-- The latched instruction word `IR` (R24). Between steps it keeps the last fetched word: DESIGN CHOICE (log 4), unsafe. -/
  ir : Word
  /-- The latched instruction address `IA` (R24). Between steps as `ir`: DESIGN CHOICE (log 4), unsafe. -/
  ia : Addr
  /-- The sequencer state (R25). -/
  seq : Seq
  /-- The halt cause (R26). -/
  hcause : HaltCause
  /-- The 256 memory cells (R27). -/
  mem : Memory
  /-- The screen output trace, oldest event first (R28). -/
  scr : List ScreenEvent
  /-- The machine's F8_RANGE_POLICY (R7, R34): configuration that the model carries here, so that every statement holds for
  every policy. Nothing after construction changes it: DESIGN CHOICE (log 1), safe. -/
  f8Policy : F8RangePolicy
deriving DecidableEq, Repr

/-- The errors an operation reports. No step raises one (R270): all three are results of the host's `LoadProgram` (R271), which
returns them beside the state it leaves (log 10). -/
inductive Fault where
  /-- The program source could not be opened (R310). Raised by `hostLoadProgram`; the state is unchanged. Safe. -/
  | fileOpenFailed
  /-- A token is not hexadecimal (R308). Raised by `hostLoadProgram`; earlier tokens stay written (R309). Safe. -/
  | streamReadFailed
  /-- A token's bytes would pass address 0xFF (R307). Raised by `hostLoadProgram`; earlier tokens stay written (R309). Safe. -/
  | tooManyInstructions
deriving DecidableEq, Repr

/-- What the model declines to give a meaning. No step answers with one. -/
inductive Refusal where
  /-- An instruction that has no meaning yet. Raised by an arm of `exec`; every arm has its meaning, so by none. Safe. -/
  | notModelled (mnemonic : String)
  /-- A dispatch table other than the standard one, at construction (R87, I2). Raised by `construct`. Safe. -/
  | nonStandardDispatchTable
  /-- Encode asked for a value Add2 cannot produce (R205, I7). Raised by `f8EncodeRequest`, which no instruction calls. Safe. -/
  | encodeOutsideDomain
deriving DecidableEq, Repr

/-- The machine right after reset (R33, R300). The screen trace, which `Reset()` itself does not touch (D16), starts empty:
DEDUCED (log 5). -/
def State.reset : State where
  x := Vector.replicate 16 0x00
  pc := 0x00
  ir := 0x0000
  ia := 0x00
  seq := .idle
  hcause := .none
  mem := []
  scr := []
  f8Policy := F8RangePolicy.standard

end Sys2Proof.Machine
end

