-- ==== Sys2Proof/Machine/Ops.lean ====
section
/-! DEFINITION. The named operations over memory, registers, the screen and the sequencer (R9, R111 to R118). Every meaning is
built from these. -/

namespace Sys2Proof.Machine

/-! ### Memory -/

/-- What an address that the list does not hold reads as: 0x00, the value of every cell after reset (R27, R33). -/
def Memory.unlisted : Byte := 0x00

/-- The byte the list holds for address `k`, `Memory.unlisted` where it holds none. -/
def Memory.lookup : Memory → Nat → Byte
  | [], _ => Memory.unlisted
  | (k', v) :: rest, k => if k' = k then v else Memory.lookup rest k

/-- The list without the entries of address `k`. -/
def Memory.erase : Memory → Nat → Memory
  | [], _ => []
  | (k', v) :: rest, k => if k' = k then Memory.erase rest k else (k', v) :: Memory.erase rest k

/-- The list with an entry for `k`, before the first entry of a greater or equal address. -/
def Memory.insert : Memory → Nat → Byte → Memory
  | [], k, v => [(k, v)]
  | (k', v') :: rest, k, v => if k ≤ k' then (k, v) :: (k', v') :: rest else (k', v') :: Memory.insert rest k v

/-- `MemRead(a, 1)` (R9): any address is legal, and reading has no side effect (R51, R58). -/
def Memory.read (m : Memory) (a : Addr) : Byte := m.lookup a.toNat

/-- `MemWrite(a, 1, v)` (R9). Writing what an unlisted address reads as leaves no entry, so the form stays canonical. -/
def Memory.write (m : Memory) (a : Addr) (v : Byte) : Memory :=
  if v = Memory.unlisted then m.erase a.toNat else (m.erase a.toNat).insert a.toNat v

/-- The canonical form from address `lo` on: addresses strictly rising, below 256 (R27), no entry equal to
`Memory.unlisted`. -/
def Memory.wfFrom : Nat → Memory → Bool
  | _, [] => true
  | lo, (k, v) :: rest => decide (lo ≤ k) && decide (k < 256) && decide (v ≠ Memory.unlisted) && Memory.wfFrom (k + 1) rest

/-- The memory is in canonical form. -/
def Memory.wf (m : Memory) : Bool := Memory.wfFrom 0 m

/-- The memory whose cells from `start` on are those of the list, in order. -/
def Memory.ofCells (start : Nat) : List Byte → Memory
  | [] => []
  | v :: rest => Memory.write (Memory.ofCells (start + 1) rest) (BitVec.ofNat 8 start) v

/-! ### Registers, pc, cells, screen -/

/-- `x[r]` (R9). No register is hard-wired (R20). -/
def State.readReg (s : State) (r : RegIdx) : Byte := s.x[r]

/-- `x[r] <- v` (R9). -/
def State.writeReg (s : State) (r : RegIdx) (v : Byte) : State := { s with x := s.x.set r v }

/-- `pc <- target` (R9). -/
def State.writePc (s : State) (target : Addr) : State := { s with pc := target }

/-- The byte of cell `a` (R9). -/
def State.readMem (s : State) (a : Addr) : Byte := s.mem.read a

/-- `mem[a] <- v` (R9). The write itself reaches no device: the screen belongs to the Store opcode (R58). -/
def State.writeMem (s : State) (a : Addr) (v : Byte) : State := { s with mem := s.mem.write a v }

/-- `ScreenWrite` or `ScreenClear`: append one event to the trace (R9, R28). -/
def State.emitScreen (s : State) (e : ScreenEvent) : State := { s with scr := s.scr ++ [e] }

/-! ### The sequencer -/

/-- The 16-bit word at address `a`: the byte at `a` is the high byte, the byte at `trunc8(a + 1)` the low one (R53, R56, R111). -/
def State.wordAt (s : State) (a : Addr) : Word := wordOfBytes (s.readMem a) (s.readMem (a + 1))

/-- `Decode(machine, address)`: the behaviour at an address, with no change of state (R110). -/
def State.decodeAt (s : State) (a : Addr) : Instr := decodeWord (s.wordAt a)

/-- Fetch and pc advance (R111, R113): latch `IR` and `IA`, then advance pc by 2 modulo 256, before the behaviour runs. -/
def State.latch (s : State) : State := { s with ir := s.wordAt s.pc, ia := s.pc, pc := s.pc + 2 }

/-- The end of a step whose behaviour signals `continue`: `seq <- Running` (R115, R117). -/
def State.signalContinue (s : State) : State := { s with seq := .running }

/-- The end of a step whose behaviour signals `halt(c)`: `seq <- Halted`, `hcause <- c` (R115, R118). It is the nearest thing
this machine has to a trap entry, and saves nothing (R274). -/
def State.signalHalt (s : State) (c : HaltCause) : State := { s with seq := .halted, hcause := c }

end Sys2Proof.Machine
end

