-- ==== Sys2Proof/Machine/Operands.lean ====
section
/-! DEFINITION. What an operand field stands for (30_encoding.md rule R83) and the byte functions of the datapaths
(R147, R170, R180). The machine has no flags (R30), so there is no flag computation. -/

namespace Sys2Proof.Machine

/-- `xy` as a jump target: made even (R83, R245). -/
def jumpTarget (xy : Addr) : Addr := xy &&& 0xFE

/-- `t` as a rotate count: the literal modulo 8 (R83, R181). -/
def rotateCount (t : BitVec 4) : Nat := t.toNat % 8

/-- `rotr8(v, n)`, for 0 ≤ n ≤ 7: circular right rotation (R180). -/
def rotr8 (v : Byte) (n : Nat) : Byte := (v >>> n) ||| (v <<< (8 - n))

/-- The display-write address of the Store opcode (R59). -/
def screenAddr : Addr := 0x00

/-- The event a Store of `v` to the display-write address emits: `Write v` if `v` is not zero, else `Clear` (R147). -/
def screenEvent (v : Byte) : ScreenEvent := if v ≠ 0x00 then .write v else .clear

end Sys2Proof.Machine
end

