-- ==== Sys2Proof/Machine/Control.lean ====
section
/-! DEFINITION. Nothing, Jump, Halt and the three Unused slots (44_control.md). The pc has already advanced (R113). -/

namespace Sys2Proof.Machine

/-- Nothing (R240). -/
def execNothing (_ignored : BitVec 12) (s : State) : Host.Outcome State Fault Refusal :=
  .next s.signalContinue

/-- Jump (R243, R245): taken when `x[r] == x[0]`, to the target made even; otherwise the advanced pc stays. -/
def execJump (r : RegIdx) (xy : Addr) (s : State) : Host.Outcome State Fault Refusal :=
  .next (if s.readReg r = s.readReg 0 then s.writePc (jumpTarget xy) else s).signalContinue

/-- Halt (R247). -/
def execHalt (_ignored : BitVec 12) (s : State) : Host.Outcome State Fault Refusal :=
  .next (s.signalHalt .haltInstr)

/-- The Unused behaviour, which fills slots 13 to 15 of the standard table (R249, R250). -/
def unusedHalt (s : State) : State := s.signalHalt .unusedOpcode

/-- Unused, slot 13 (R249). -/
def execUnused13 (_ignored : BitVec 12) (s : State) : Host.Outcome State Fault Refusal := .next (unusedHalt s)

/-- Unused, slot 14 (R249). -/
def execUnused14 (_ignored : BitVec 12) (s : State) : Host.Outcome State Fault Refusal := .next (unusedHalt s)

/-- Unused, slot 15 (R249). -/
def execUnused15 (_ignored : BitVec 12) (s : State) : Host.Outcome State Fault Refusal := .next (unusedHalt s)

end Sys2Proof.Machine
end

