-- ==== Sys2Proof/Machine/Float.lean ====
section
/-! DEFINITION. The mini-float codec and Add2 (43_float.md). Values are exact: multiples of 1/256, held as integers (R204). -/

namespace Sys2Proof.Machine

/-- The sign bit of a mini-float byte (R200). -/
def f8Sign (b : Byte) : Bool := b.getLsbD 7

/-- The excess-4 exponent field (R200). -/
def f8Exponent (b : Byte) : Nat := (b.extractLsb' 4 3).toNat

/-- The mantissa field (R200). -/
def f8Mantissa (b : Byte) : Nat := (b.extractLsb' 0 4).toNat

/-- `D(b)`: the decoded value in units of 1/256, `(-1)^s * m * 2^e` (R203, R204). -/
def f8Units (b : Byte) : Int :=
  let magnitude : Int := (f8Mantissa b * 2 ^ f8Exponent b : Nat)
  if f8Sign b then -magnitude else magnitude

/-- `F8Decode(b)`: the exact rational value `(-1)^s * (m / 16) * 2^(e - 4)` (R202). -/
def f8Decode (b : Byte) : ℚ :=
  (if f8Sign b then -1 else 1) * ((f8Mantissa b : ℚ) / 16) * 2 ^ ((f8Exponent b : ℤ) - 4)

/-- Pack sign, exponent and mantissa: `sign<<7 | exponent<<4 | mantissa` (R200), each cut to its field. -/
def f8Pack (sign : Bool) (exponent mantissa : Nat) : Byte :=
  BitVec.ofBool sign ++ BitVec.ofNat 3 exponent ++ BitVec.ofNat 4 mantissa

/-- The low band, `1 ≤ M ≤ 7`, under each policy (R208). With `L = log2 M` and `E = L - 3`, `-E` is `3 - L` and `E mod 8` is
`L + 5`. -/
def f8EncodeLow (p : F8RangePolicy) (sign : Bool) (m : Nat) : Byte :=
  match p with
  | .bounded => f8Pack sign 0 m
  | .clamp => f8Pack sign 0 (m <<< (3 - m.log2))
  | .wrap => f8Pack sign (m.log2 + 5) (m <<< (3 - m.log2))

/-- The normal band, `8 ≤ M ≤ 2047`, where every reading agrees (R207): `E = log2 M - 3`, the mantissa truncated. -/
def f8EncodeNormal (sign : Bool) (m : Nat) : Byte := f8Pack sign (m.log2 - 3) (m >>> (m.log2 - 3))

/-- The high band, `M ≥ 2048`, under each policy (R208). -/
def f8EncodeHigh (p : F8RangePolicy) (sign : Bool) (m : Nat) : Byte :=
  match p with
  | .bounded => f8Pack sign 7 ((m >>> 7) % 16)
  | .clamp => f8Pack sign 7 (m >>> (m.log2 - 3))
  | .wrap => f8Pack sign ((m.log2 - 3) % 8) (m >>> (m.log2 - 3))

/-- `F8Encode(S / 256)` (R205 to R208). The spec defines it for `|S| ≤ 3840`, which is all Add2 gives it (R204). -/
def f8Encode (p : F8RangePolicy) (units : Int) : Byte :=
  let m := units.natAbs
  let sign := decide (units < 0)
  if m = 0 then 0x00
  else if m ≤ 7 then f8EncodeLow p sign m
  else if m ≤ 2047 then f8EncodeNormal sign m
  else f8EncodeHigh p sign m

/-- Encode asked for directly: refused outside its domain (R205, I7). No instruction calls this; Add2's sums lie inside. -/
def f8EncodeRequest (p : F8RangePolicy) (units : Int) : Except Refusal Byte :=
  if units.natAbs ≤ 3840 then .ok (f8Encode p units) else .error .encodeOutsideDomain

/-- The first loop of R209, `while a >= 1 and k < 3`: halve. `a` is held in units of 1/2048, so that the three halvings the
bound allows are exact; the fuel is `3 - k`, and `e` is the running `k + 4`. -/
def f8Halve : Nat → Nat → Nat → Nat × Nat
  | 0, a, e => (a, e)
  | fuel + 1, a, e => if 2048 ≤ a then f8Halve fuel (a / 2) (e + 1) else (a, e)

/-- The second loop of R209, `while a < 1/2 and k > -4`: double. The fuel is `k + 4`, the running exponent itself. -/
def f8Double : Nat → Nat → Nat × Nat
  | 0, a => (a, 0)
  | e + 1, a => if a < 1024 then f8Double e (2 * a) else (a, e + 1)

/-- R209's algorithm for the policy `Bounded`, loop by loop. `floor(a * 16)` is `a / 128` in units of 1/2048. -/
def f8EncodeBoundedLoop (units : Int) : Byte :=
  let halved := f8Halve 3 (8 * units.natAbs) 4
  let doubled := f8Double halved.2 halved.1
  f8Pack (decide (units < 0)) doubled.2 (doubled.1 / 128 % 16)

/-- The integer sum of two decoded bytes, `S = D(a) + D(b)` (R220). -/
def f8Sum (a b : Byte) : Int := f8Units a + f8Units b

/-- Add2 (R220): decode, add exactly, encode by the machine's policy. -/
def execAdd2 (r s t : RegIdx) (st : State) : Host.Outcome State Fault Refusal :=
  .next (st.writeReg r (f8Encode st.f8Policy (f8Sum (st.readReg s) (st.readReg t)))).signalContinue

end Sys2Proof.Machine
end

