-- ==== Sys2Proof/Machine/IntLogic.lean ====
section
/-! DEFINITION. Add1, Or, And, Xor and Rotate (42_integer_logic.md). Each reads its sources before it writes its
destination (R126) and reports no carry or overflow (R171). -/

namespace Sys2Proof.Machine

/-- Write the byte function `f` of two source registers into `r`: the shape Add1, Or, And and Xor share (R170 to R177). -/
def binaryToReg (f : Byte → Byte → Byte) (r s t : RegIdx) (st : State) : State :=
  (st.writeReg r (f (st.readReg s) (st.readReg t))).signalContinue

/-- Add1 (R170): addition modulo 256. -/
def execAdd1 (r s t : RegIdx) (st : State) : Host.Outcome State Fault Refusal :=
  .next (binaryToReg (fun a b => a + b) r s t st)

/-- Or (R173). -/
def execOr (r s t : RegIdx) (st : State) : Host.Outcome State Fault Refusal :=
  .next (binaryToReg (fun a b => a ||| b) r s t st)

/-- And (R175). -/
def execAnd (r s t : RegIdx) (st : State) : Host.Outcome State Fault Refusal :=
  .next (binaryToReg (fun a b => a &&& b) r s t st)

/-- Xor (R177). -/
def execXor (r s t : RegIdx) (st : State) : Host.Outcome State Fault Refusal :=
  .next (binaryToReg (fun a b => a ^^^ b) r s t st)

/-- Rotate (R179): `r` is source and destination; the field `s` is ignored (R88). -/
def execRotate (r : RegIdx) (_ignored t : BitVec 4) (st : State) : Host.Outcome State Fault Refusal :=
  .next (st.writeReg r (rotr8 (st.readReg r) (rotateCount t))).signalContinue

end Sys2Proof.Machine
end

