-- ==== Sys2Proof/Machine/LoadStore.lean ====
section
/-! DEFINITION. Load1, Load2, Store and Move (41_load_store_move.md). A meaning runs after the latch and the pc advance
(R113), and ends with the sequencer's update (R115). -/

namespace Sys2Proof.Machine

/-- Load1 (R140). -/
def execLoad1 (r : RegIdx) (xy : Addr) (s : State) : Host.Outcome State Fault Refusal :=
  .next (s.writeReg r (s.readMem xy)).signalContinue

/-- Load2 (R143). -/
def execLoad2 (r : RegIdx) (xy : Byte) (s : State) : Host.Outcome State Fault Refusal :=
  .next (s.writeReg r xy).signalContinue

/-- Store (R146, R147): the cell first, then one screen event if `xy` is the display-write address. -/
def execStore (r : RegIdx) (xy : Addr) (s : State) : Host.Outcome State Fault Refusal :=
  let v := s.readReg r
  let written := s.writeMem xy v
  .next (if xy = screenAddr then written.emitScreen (screenEvent v) else written).signalContinue

/-- Move (R150): from `s` to `t`; the field `r` is ignored (R88). -/
def execMove (_ignored : BitVec 4) (s t : RegIdx) (st : State) : Host.Outcome State Fault Refusal :=
  .next (st.writeReg t (st.readReg s)).signalContinue

end Sys2Proof.Machine
end

