-- ==== Sys2Proof/Machine/Dispatch.lean ====
section
/-! DEFINITION. One arm per instruction, each a direct call of its meaning (R112, R115). -/

namespace Sys2Proof.Machine

/-- The behaviour of a decoded instruction, run at a state whose latch and pc advance are done (R113). -/
def exec (i : Instr) (s : State) : Host.Outcome State Fault Refusal :=
  match i with
  | .nothing ign => Sys2Proof.Machine.execNothing ign s
  | .load1 r xy => Sys2Proof.Machine.execLoad1 r xy s
  | .load2 r xy => Sys2Proof.Machine.execLoad2 r xy s
  | .store r xy => Sys2Proof.Machine.execStore r xy s
  | .move ign src dst => Sys2Proof.Machine.execMove ign src dst s
  | .add1 r src1 src2 => Sys2Proof.Machine.execAdd1 r src1 src2 s
  | .add2 r src1 src2 => Sys2Proof.Machine.execAdd2 r src1 src2 s
  | .or r src1 src2 => Sys2Proof.Machine.execOr r src1 src2 s
  | .and r src1 src2 => Sys2Proof.Machine.execAnd r src1 src2 s
  | .xor r src1 src2 => Sys2Proof.Machine.execXor r src1 src2 s
  | .rotate r ign cnt => Sys2Proof.Machine.execRotate r ign cnt s
  | .jump r xy => Sys2Proof.Machine.execJump r xy s
  | .halt ign => Sys2Proof.Machine.execHalt ign s
  | .unused13 ign => Sys2Proof.Machine.execUnused13 ign s
  | .unused14 ign => Sys2Proof.Machine.execUnused14 ign s
  | .unused15 ign => Sys2Proof.Machine.execUnused15 ign s

end Sys2Proof.Machine
end

