-- ==== Sys2Proof/Machine/Sequencer.lean ====
section
/-! DEFINITION. What Step.lean puts together (40_sequencer.md): the return value of a step, and the placing of an instruction
where the next step fetches it. -/

namespace Sys2Proof.Machine

/-- Whether the sequencer is in `Halted`. After a `Step()` this is the value it returns (R116): a behaviour that signalled halt,
or a step that started in `Halted`, leaves `Halted`; any other leaves `Running`. DEDUCED (log 8), safe. -/
def State.isHalted (s : State) : Bool := decide (s.seq = .halted)

/-- A host write of the pc: it also sets `seq <- Idle` and `hcause <- None` (R32, R120). -/
def State.setPcFromHost (s : State) (v : Addr) : State := { s with pc := v, seq := .idle, hcause := .none }

/-- Store a word at an address, high byte first (R53, R306). Host writes reach no screen (R32, R58). -/
def State.storeWord (s : State) (a : Addr) (w : Word) : State :=
  (s.writeMem a (w.extractLsb' 8 8)).writeMem (a + 1) (w.extractLsb' 0 8)

/-- A state whose next step runs an instruction: a halted one as a host `PcSet` of its own pc leaves it (R120), any other as it
is. DESIGN CHOICE (log 6), safe. -/
def State.awake (s : State) : State := if s.isHalted then s.setPcFromHost s.pc else s

/-- The word of an opcode-table row placed where the next step fetches: at pc (R111). -/
def State.placeInstr (s : State) (nbits w : Nat) : State := s.awake.storeWord s.pc (tableWord nbits w)

end Sys2Proof.Machine
end

