-- ==== Sys2Proof/Machine/Step.lean ====
section
/-! DEFINITION. One `Step()` (R115), and the placing of an instruction for the next step. -/

namespace Sys2Proof.Machine

/-- `Step()` (R115): in `Halted` nothing happens (R119); otherwise fetch, latch, advance the pc, and run the behaviour. -/
def step (s : State) : Host.Outcome State Fault Refusal :=
  if s.isHalted then .next s else exec (decodeWord s.latch.ir) s.latch

/-- `s` with a row's word where the next step fetches its instruction (log 6). -/
def State.withFetchWord (s : State) (nbits w : Nat) : State := s.placeInstr nbits w

end Sys2Proof.Machine
end

