-- ==== Sys2Proof/Machine/Assembly.lean ====
section
/-! DEFINITION. The spec's own assembly notation (R95) and its pseudo-instructions (R96). It touches no state, and no step
uses it. -/

namespace Sys2Proof.Machine

/-- The four pseudo-instructions of R96. -/
inductive Pseudo where
  | jmp (xy : Addr)
  | nop
  | clr (r : RegIdx)
  | putc (r : RegIdx)
deriving DecidableEq, Repr

/-- Each pseudo-instruction is exactly one instruction (R96). -/
def Pseudo.expand : Pseudo → Instr
  | .jmp xy => .jump 0 xy
  | .nop => .nothing 0
  | .clr r => .load2 r 0x00
  | .putc r => .store r 0x00

/-- One upper-case hexadecimal digit. -/
def hexChar (n : Nat) : Char := ("0123456789ABCDEF".toList).getD n '?'

/-- A byte as `0xHH` (R95). -/
def showByte (b : Byte) : String := String.ofList ['0', 'x', hexChar (b.toNat / 16), hexChar (b.toNat % 16)]

/-- A number below 16 in decimal. -/
def showSmall (n : Nat) : String :=
  String.ofList (if n < 10 then [hexChar n] else ['1', hexChar (n - 10)])

/-- A register operand, `R0` to `R15` (R95). -/
def showReg (r : RegIdx) : String := "R" ++ showSmall r.val

/-- Three register operands. -/
def showRegs (r s t : RegIdx) : String := showReg r ++ ", " ++ showReg s ++ ", " ++ showReg t

/-- The notation of R95. Ignored fields are not written. Rotate's count is written as a plain decimal number, 0 to 15, where R95
leaves open how counts of 10 and more are written: DESIGN CHOICE (log 23), safe. -/
def showInstr : Instr → String
  | .nothing _ => "NOTHING"
  | .load1 r xy => "LOAD1 " ++ showReg r ++ ", [" ++ showByte xy ++ "]"
  | .load2 r xy => "LOAD2 " ++ showReg r ++ ", " ++ showByte xy
  | .store r xy => "STORE " ++ showReg r ++ ", [" ++ showByte xy ++ "]"
  | .move _ s t => "MOVE " ++ showReg s ++ ", " ++ showReg t
  | .add1 r s t => "ADD1 " ++ showRegs r s t
  | .add2 r s t => "ADD2 " ++ showRegs r s t
  | .or r s t => "OR " ++ showRegs r s t
  | .and r s t => "AND " ++ showRegs r s t
  | .xor r s t => "XOR " ++ showRegs r s t
  | .rotate r _ t => "ROTATE " ++ showReg r ++ ", " ++ showSmall t.toNat
  | .jump r xy => "JUMP " ++ showReg r ++ ", " ++ showByte xy
  | .halt _ => "HALT"
  | .unused13 _ => "UNUSED13"
  | .unused14 _ => "UNUSED14"
  | .unused15 _ => "UNUSED15"

end Sys2Proof.Machine
end

