-- ==== Sys2Proof/Machine/Loader.lean ====
section
/-! DEFINITION. `LoadProgram` (70_reset_and_hazards.md rules R305 to R312): the token grammar and the memory writes. -/

namespace Sys2Proof.Machine

/-- Where a program comes from: a path that cannot be opened (R310), or a stream of text (R90). -/
inductive ProgramSource where
  | unopenable
  | text (chars : List Char)
deriving DecidableEq, Repr

/-- The separators: space, tab, carriage return, line feed (R311). -/
def isSeparator (c : Char) : Bool := c == ' ' || c == '\t' || c == '\r' || c == '\n'

/-- A hexadecimal digit's value, either case (R311). -/
def hexDigit? (c : Char) : Option Nat :=
  if '0'.toNat ≤ c.toNat ∧ c.toNat ≤ '9'.toNat then some (c.toNat - '0'.toNat)
  else if 'a'.toNat ≤ c.toNat ∧ c.toNat ≤ 'f'.toNat then some (c.toNat - 'a'.toNat + 10)
  else if 'A'.toNat ≤ c.toNat ∧ c.toNat ≤ 'F'.toNat then some (c.toNat - 'A'.toNat + 10)
  else none

/-- The number that hexadecimal digits stand for, read after the digits already counted in `acc`. -/
def hexValue? : Nat → List Char → Option Nat
  | acc, [] => some acc
  | acc, c :: rest =>
    match hexDigit? c with
    | some d => hexValue? (16 * acc + d) rest
    | none => none

/-- The word of a token: 1 to 4 hexadecimal digits, zero-extended to 16 bits; any other token is none (R311). -/
def parseToken (token : List Char) : Option Word :=
  if token.length = 0 ∨ 4 < token.length then none else (hexValue? 0 token).map (BitVec.ofNat 16)

/-- The tokens of a text, where `current` is the token being read, its last character first. -/
def tokensFrom : List Char → List Char → List (List Char)
  | current, [] => if current.isEmpty then [] else [current.reverse]
  | current, c :: rest =>
    if isSeparator c then
      if current.isEmpty then tokensFrom [] rest else current.reverse :: tokensFrom [] rest
    else tokensFrom (c :: current) rest

/-- The tokens of a program text, in order: maximal runs of characters that are no separators (R306, R311). -/
def tokens (text : List Char) : List (List Char) := tokensFrom [] text

/-- What a load leaves: the state, and the error it reports if it failed (R306). -/
structure LoadReport where
  state : State
  error : Option Fault
deriving DecidableEq, Repr

/-- The loader's loop (R306), with `at_` the address of the next token's high byte: parse, then check capacity, then write. A
token that fails writes nothing and the tokens before it stay written (R307 to R309). -/
def loadTokens : List (List Char) → Nat → State → LoadReport
  | [], _, s => ⟨s, none⟩
  | token :: rest, at_, s =>
    match parseToken token with
    | none => ⟨s, some .streamReadFailed⟩
    | some w =>
      if 255 < at_ + 1 then ⟨s, some .tooManyInstructions⟩
      else
        loadTokens rest (at_ + 2)
          ((s.writeMem (BitVec.ofNat 8 at_) (w.extractLsb' 8 8)).writeMem (BitVec.ofNat 8 (at_ + 1)) (w.extractLsb' 0 8))

/-- `LoadProgram(source, start)` (R305, R306, R310). -/
def hostLoadProgram (source : ProgramSource) (start : Addr) (s : State) : LoadReport :=
  match source with
  | .unopenable => ⟨s, some .fileOpenFailed⟩
  | .text chars => loadTokens (tokens chars) start.toNat s

/-- `LoadProgram(source)`: a load that names no start takes LOAD_START's default, 0 (R7, R306). -/
def hostLoadProgramAtDefault (source : ProgramSource) (s : State) : LoadReport := hostLoadProgram source loadStartDefault s

end Sys2Proof.Machine
end

