-- ==== Sys2Proof/Machine/HostOps.lean ====
section
/-! DEFINITION. The host's operations (10_state.md rules R31 and R32, 40_sequencer.md R116 and R121, 70_reset_and_hazards.md
R300 and R302). Each is one indivisible transition between steps (R57, R67, D15). -/

namespace Sys2Proof.Machine

/-- `Reset()` (R300): every register, the pc and every cell zero, `seq` Idle, `hcause` None, `IR` and `IA` zero (R33). The
screen trace and the configuration stay (D16). -/
def hostReset (s : State) : State := { State.reset with scr := s.scr, f8Policy := s.f8Policy }

/-- The state of a newly constructed machine (R302): the reset state, or an arbitrary byte in every register, the pc and every
cell. What `Unspecified` leaves in `IR`, `IA` and the trace is a DESIGN CHOICE (log 17). -/
def powerOnState (policy : F8RangePolicy) : PowerOn → State
  | .zero => { State.reset with f8Policy := policy }
  | .unspecified regs pc cells =>
    { State.reset with f8Policy := policy, x := regs, pc := pc, mem := Memory.ofCells 0 cells.toList }

/-- Construction, each parameter with the default R7 gives it. A table other than the standard one is refused by name (R87, I2,
D9). -/
def construct (table : DispatchTable := DispatchTable.standard) (policy : F8RangePolicy := F8RangePolicy.standard)
    (powerOn : PowerOn := PowerOn.standard) : Except Refusal State :=
  if table.wellFormed then .ok (powerOnState policy powerOn) else .error .nonStandardDispatchTable

/-- `MemGet(a)` (R32). -/
def hostMemGet (a : Addr) (s : State) : Byte := s.readMem a

/-- `MemSet(a, v)`: no screen event, even at 0x00, and no change of `seq` or `hcause` (R32, D19). -/
def hostMemSet (a : Addr) (v : Byte) (s : State) : State := s.writeMem a v

/-- `RegGet(i)` (R32). -/
def hostRegGet (r : RegIdx) (s : State) : Byte := s.readReg r

/-- `RegSet(i, v)` (R32). -/
def hostRegSet (r : RegIdx) (v : Byte) (s : State) : State := s.writeReg r v

/-- `PcGet()` (R32). -/
def hostPcGet (s : State) : Addr := s.pc

/-- `PcSet(v)`, odd values included: it also sets `seq <- Idle` and `hcause <- None` (R32, R120). -/
def hostPcSet (v : Addr) (s : State) : State := s.setPcFromHost v

/-- `StatusGet()` (R31, R32). -/
def hostStatusGet (s : State) : Seq × HaltCause := (s.seq, s.hcause)

/-- The description of the behaviour at an address (R114, R281): a free value, with no effect on state (log 12). -/
def hostDescribe (a : Addr) (s : State) : String := Config.behaviourDescription (s.wordAt a) a

/-- `Step() -> ShouldHalt` as the host sees it (R115, R116): the state after it and the value returned. -/
def hostStep (s : State) : Host.Outcome (State × Bool) Fault Refusal :=
  match step s with
  | .next t => .next (t, t.isHalted)
  | .fault e => .fault e
  | .refused e => .refused e

/-- What a bounded `Run()` reports: the state it reached, whether a `Step()` returned true, and how many steps counted (R128). -/
structure RunReport where
  state : State
  ended : Bool
  executed : Nat
deriving DecidableEq, Repr

/-- `Run()` (R121) with a bound on the number of `Step()` calls, as I6 asks: `Run()` itself has none (R123). A step counts when it
starts in `Idle` or `Running` (R128). A `Run()` that never returns is one that has not ended at any bound. DESIGN CHOICE (log 9), safe. -/
def hostRun : Nat → State → Host.Outcome RunReport Fault Refusal
  | 0, s => .next ⟨s, false, 0⟩
  | bound + 1, s =>
    match hostStep s with
    | .next (t, true) => .next ⟨t, true, if s.isHalted then 0 else 1⟩
    | .next (t, false) =>
      match hostRun bound t with
      | .next report => .next { report with executed := report.executed + 1 }
      | .fault e => .fault e
      | .refused e => .refused e
    | .fault e => .fault e
    | .refused e => .refused e

/-- The host operations that may change the state, one transition each (R31). `Run` is repeated `step`, and the reading operations
change nothing. -/
inductive HostCall where
  | reset
  | step
  | memSet (a : Addr) (v : Byte)
  | regSet (r : RegIdx) (v : Byte)
  | pcSet (v : Addr)
  | loadProgram (source : ProgramSource) (start : Addr := loadStartDefault)
deriving DecidableEq, Repr

/-- One host operation. A load that fails still leaves a next state (R309). -/
def hostCall (c : HostCall) (s : State) : Host.Outcome State Fault Refusal :=
  match c with
  | .reset => .next (hostReset s)
  | .step => step s
  | .memSet a v => .next (hostMemSet a v s)
  | .regSet r v => .next (hostRegSet r v s)
  | .pcSet v => .next (hostPcSet v s)
  | .loadProgram source start => .next (hostLoadProgram source start s).state

end Sys2Proof.Machine
end

