-- ==== Sys2Proof/Safety.lean ====
section
/-! DEFINITION. The terms in which claims speak of the machine: how a run ends (R124), the invariants, and the frames of the
instructions. -/

namespace Sys2Proof.Machine

/-! ### How a run ends (R124) -/

/-- A run has ended: `seq` is Halted. -/
def State.hasEnded (s : State) : Prop := s.seq = .halted

/-- A run ended cleanly, by a Halt. -/
def State.endedCleanly (s : State) : Prop := s.seq = .halted ∧ s.hcause = .haltInstr

/-- A run ended at an unused opcode. -/
def State.endedAtUnused (s : State) : Prop := s.seq = .halted ∧ s.hcause = .unusedOpcode

/-! ### Invariants -/

/-- The pc is even (R23, R54). -/
def PcEven (s : State) : Prop := s.pc.toNat % 2 = 0

/-- A halt cause is recorded exactly while the machine is halted (R26). -/
def HaltCauseAgrees (s : State) : Prop := s.seq = .halted ↔ s.hcause ≠ .none

/-- The memory is in canonical form (log 7). -/
def MemCanonical (s : State) : Prop := s.mem.wf = true

/-! ### Frames

What an instruction leaves as it was, at the level of `exec`: the latch and the pc advance are done before it (R113). -/

/-- The latch and the configuration, which no behaviour writes (R24, R29, R34). -/
structure KeepsLatch (s t : State) : Prop where
  ir : t.ir = s.ir
  ia : t.ia = s.ia
  f8Policy : t.f8Policy = s.f8Policy

/-- Every register, every cell and the screen trace are as before. -/
structure KeepsData (s t : State) : Prop where
  regs : ∀ q, t.readReg q = s.readReg q
  cells : ∀ a, t.readMem a = s.readMem a
  scr : t.scr = s.scr

/-- The behaviour signalled `continue` (R114, R117). -/
structure Continues (s t : State) : Prop where
  seq : t.seq = .running
  hcause : t.hcause = s.hcause

/-- The behaviour signalled `halt(c)` (R114, R118). -/
structure Halts (c : HaltCause) (t : State) : Prop where
  seq : t.seq = .halted
  hcause : t.hcause = c

/-- The behaviour wrote `v` to register `r` and did nothing else: every other register, every byte of memory, the pc, the screen
trace and the latch are as before, and it signalled `continue`. -/
structure WritesReg (r : RegIdx) (v : Byte) (s t : State) : Prop where
  result : t.readReg r = v
  otherRegs : ∀ q, q ≠ r → t.readReg q = s.readReg q
  cells : ∀ a, t.readMem a = s.readMem a
  pc : t.pc = s.pc
  scr : t.scr = s.scr
  latch : KeepsLatch s t
  signal : Continues s t

/-- The bits of a word that its opcode uses; the others are the ignored bits of R84. -/
def usedBits (op : BitVec 4) : Word :=
  if op = 0 ∨ 12 ≤ op then 0xF000
  else if op = 4 then 0xF0FF
  else if op = 10 then 0xFF0F
  else 0xFFFF

end Sys2Proof.Machine
end

