-- ==== Sys2Proof/Certificates/Slice0/Obligations.lean ====
section
/-! DEFINITION. The statements for the provers. Each docstring names the rules of spec/ it formalises, or says that it rests on a
choice of the model and on which log entry. A docstring that names a decision (D<n>) or a derived rule rests on a choice or an
inference that the spec marks as its own, which the model follows (log 16). -/

open Sys2Proof Sys2Proof.Machine

/-! ### Encoding and decoding -/

/-- Every instruction, with every operand and every ignored bit at every value, is read back from its own bytes, whatever bytes
follow. Derived from R81, R84 and R86; that ignored bits are kept is the model's choice (log 14). -/
def Obligations.DecodeInvertsEncode : Prop :=
  ∀ (i : Instr) (rest : List Byte), decode (encodeBytes i ++ rest) = .ok (i, rest)

/-- Every word is the encoding of the instruction it decodes to: no bit of a word is dropped and no word has two readings.
Derived from R85; that ignored bits are kept is the model's choice (log 14). -/
def Obligations.EncodeInvertsDecodeWord : Prop :=
  ∀ w : Word, encode (decodeWord w) = w

/-- R82: with `mem[A] = h` and `mem[A+1] = l`, the fields are `h>>4`, `h&0xF`, `l>>4`, `l&0xF` and `l`; and the two bytes are
`(op << 4) | r` and `xy`. -/
def Obligations.FieldsOfTheBytesAtAnAddress : Prop :=
  ∀ (s : State) (a : Addr),
    let f := fieldsOf (s.wordAt a)
    f.op.toNat = (s.readMem a).toNat / 16 ∧ f.r.toNat = (s.readMem a).toNat % 16 ∧
    f.s.toNat = (s.readMem (a + 1)).toNat / 16 ∧ f.t.toNat = (s.readMem (a + 1)).toNat % 16 ∧
    f.xy = s.readMem (a + 1) ∧ (s.readMem a).toNat = f.op.toNat * 16 + f.r.toNat ∧
    f.xy.toNat = f.s.toNat * 16 + f.t.toNat

/-- R85, R110 and R112: decoding rejects no two bytes; the behaviour is the standard table's entry for the opcode nibble, which is
the high nibble of the byte at the address; and the words of opcodes 13 to 15 decode and then halt. -/
def Obligations.EveryWordSelectsItsTableEntry : Prop :=
  (∀ (hi lo : Byte) (rest : List Byte), ∃ i, decode (hi :: lo :: rest) = .ok (i, rest)) ∧
  (∀ w : Word, (decodeWord w).behaviour = DispatchTable.standard[(fieldsOf w).op.toNat]) ∧
  (∀ (s : State) (a : Addr),
    (s.decodeAt a).behaviour = DispatchTable.standard[((s.readMem a).extractLsb' 4 4).toNat]) ∧
  (∀ (w : Word) (s : State), 13 ≤ (fieldsOf w).op.toNat →
    ∃ t, exec (decodeWord w) s = .next t ∧ t.seq = .halted)

/-- A few words of 95_test_vectors.md section 2.1 decode to the instructions listed there. -/
def Obligations.SampleWordsDecodeAsListed : Prop :=
  decodeWord 0x0FFF = .nothing 0xFFF ∧ decodeWord 0x1A3C = .load1 10 0x3C ∧ decodeWord 0x2BFF = .load2 11 0xFF ∧
  decodeWord 0x3100 = .store 1 0x00 ∧ decodeWord 0x4F12 = .move 0xF 1 2 ∧ decodeWord 0x6EDC = .add2 14 13 12 ∧
  decodeWord 0xA7F3 = .rotate 7 0xF 3 ∧ decodeWord 0xB0FE = .jump 0 0xFE ∧ decodeWord 0xC07F = .halt 0x07F ∧
  decodeWord 0xD000 = .unused13 0 ∧ decodeWord 0xFFFF = .unused15 0xFFF

/-- A word runs exactly as the same word with zeros in the bits its opcode ignores (R84), at every state. Rests on R88, the spec's
decision D10 (log 16). -/
def Obligations.IgnoredBitsChangeNothing : Prop :=
  ∀ (w : Word) (s : State), exec (decodeWord w) s = exec (decodeWord (w &&& usedBits (fieldsOf w).op)) s

/-- The four pseudo-instructions are the words `B0XY`, `0000`, `2r00` and `3r00`. Rests on R96, the spec's decision D11 (log 16). -/
def Obligations.PseudoInstructionsAreTheirWords : Prop :=
  (∀ xy : Addr, encode (Pseudo.jmp xy).expand = 0xB0#8 ++ xy) ∧
  encode Pseudo.nop.expand = 0x0000 ∧
  (∀ r : RegIdx, encode (Pseudo.clr r).expand = 0x2#4 ++ (regField r ++ (0x00 : Byte))) ∧
  (∀ r : RegIdx, encode (Pseudo.putc r).expand = 0x3#4 ++ (regField r ++ (0x00 : Byte)))

/-! ### The step -/

/-- When the machine is not halted and the bytes at the pc decode to `i`, a step is `exec i` at the state in which `IR` and `IA` are
latched and the pc has advanced by 2 modulo 256, before the behaviour runs. Rests on R111 and R113, the spec's decisions D2 and D4
(log 16). -/
def Obligations.StepRunsTheDecodedInstruction : Prop :=
  ∀ (s : State) (i : Instr), s.seq ≠ .halted →
    decode [s.readMem s.pc, s.readMem (s.pc + 1)] = .ok (i, []) →
    step s = exec i { s with ir := wordOfBytes (s.readMem s.pc) (s.readMem (s.pc + 1)), ia := s.pc, pc := s.pc + 2 }

/-- A step that starts in Halted changes nothing at all and returns true. Rests on R119, the spec's decision D5 (log 16). -/
def Obligations.StepInHaltedChangesNothing : Prop :=
  ∀ s : State, s.seq = .halted → step s = .next s ∧ hostStep s = .next (s, true)

/-- No instruction faults or is refused, at any state, and so no step does (R85, R270). -/
def Obligations.EveryInstructionAndStepCompletes : Prop :=
  (∀ (i : Instr) (s : State), ∃ t, exec i s = .next t) ∧ ∀ s : State, ∃ t, step s = .next t

/-- A step that starts in Idle or Running leaves Halted with the cause, nothing else changed but the latch and the pc advance, if the
behaviour is Halt or Unused (R118); otherwise it leaves Running, with the halt cause as it was (R117). The cause is the spec's
decision D6, and that every continuing step leaves Running its decision D18 (log 16); that the cause stays on a continuing step even
in a state no run reaches is the model's choice (log 19), and so is that `IR` and `IA` keep the latched values once the step has
ended (log 4). -/
def Obligations.StepSetsTheSequencerState : Prop :=
  ∀ (s t : State), s.seq ≠ .halted → step s = .next t →
    match (s.decodeAt s.pc).behaviour with
    | .halt => t = { s with ir := s.wordAt s.pc, ia := s.pc, pc := s.pc + 2, seq := .halted, hcause := .haltInstr }
    | .unused => t = { s with ir := s.wordAt s.pc, ia := s.pc, pc := s.pc + 2, seq := .halted, hcause := .unusedOpcode }
    | _ => t.seq = .running ∧ t.hcause = s.hcause

/-- R116: `Step()` returns true exactly when the behaviour signalled halt or the step started in Halted. -/
def Obligations.StepReturnsTrueExactlyOnHalt : Prop :=
  ∀ s : State, ∃ t b, hostStep s = .next (t, b) ∧ step s = .next t ∧
    (b = true ↔
      s.seq = .halted ∨ (s.decodeAt s.pc).behaviour = .halt ∨ (s.decodeAt s.pc).behaviour = .unused)

/-- After a step the pc is the even target of a taken Jump, and otherwise 2 past the instruction, modulo 256. Rests on R125, an
inference the spec marks as derived (log 16). -/
def Obligations.PcAfterAStep : Prop :=
  ∀ (s t : State), s.seq ≠ .halted → step s = .next t →
    t.pc = match s.decodeAt s.pc with
      | .jump r xy => if s.readReg r = s.readReg 0 then xy &&& 0xFE else s.pc + 2
      | _ => s.pc + 2

/-- The second byte of a fetch at 0xFF is the byte at 0x00 (R56), and from 0xFE every behaviour but Jump leaves pc 0x00 (R113).
Rests on the spec's decision D2 (log 16); that `IR` and `IA` keep the latched values once the step has ended is the model's choice
(log 4). -/
def Obligations.FetchAndPcWrapAtTheTop : Prop :=
  (∀ (s t : State), s.seq ≠ .halted → s.pc = 0xFF → step s = .next t →
    t.ia = 0xFF ∧ t.ir = wordOfBytes (s.readMem 0xFF) (s.readMem 0x00)) ∧
  (∀ (s t : State), s.seq ≠ .halted → s.pc = 0xFE → (s.decodeAt s.pc).behaviour ≠ .jump → step s = .next t →
    t.pc = 0x00)

/-- An odd pc fetches at the odd address and stays odd, until a Jump is taken, which makes it even (R55, R245). Rests on the
spec's decision D3 (log 16); that `IR` keeps the latched word once the step has ended is the model's choice (log 4). -/
def Obligations.OddPcStaysOddUntilATakenJump : Prop :=
  ∀ (s : State), s.seq ≠ .halted → ¬ PcEven s →
    ∃ t, step s = .next t ∧ t.ir = wordOfBytes (s.readMem s.pc) (s.readMem (s.pc + 1)) ∧
      (PcEven t ↔ ∃ r xy, s.decodeAt s.pc = .jump r xy ∧ s.readReg r = s.readReg 0)

/-- A Store is seen by every later fetch, the very next one among them, whichever byte it writes; and one that writes its own
instruction's bytes still runs as the word that was latched. Rests on R321, an inference the spec marks as derived, and on its
decision D4 (log 16); that `IR` keeps the latched word once the step has ended is the model's choice (log 4). -/
def Obligations.StoreIsSeenByLaterFetchesNotByItself : Prop :=
  ∀ (s : State) (r : RegIdx) (xy : Addr), s.seq ≠ .halted → s.decodeAt s.pc = .store r xy →
    ∃ t, step s = .next t ∧ t.ir = s.wordAt s.pc ∧ t.seq = .running ∧ t.pc = s.pc + 2 ∧
      (∀ a, t.wordAt a =
        wordOfBytes (if a = xy then s.readReg r else s.readMem a) (if a + 1 = xy then s.readReg r else s.readMem (a + 1))) ∧
      step t = exec (decodeWord (t.wordAt (s.pc + 2))) t.latch ∧
      t.scr = s.scr ++ (if xy = 0x00 then [if s.readReg r = 0x00 then .clear else .write (s.readReg r)] else [])

/-- A taken Jump to its own address, from Running, changes nothing but the latch, and the next step changes nothing at all. Rests on
R246, an inference the spec marks as derived (log 16); that `IR` and `IA` keep the latched values once the step has ended, the only
change here, is the model's choice (log 4). -/
def Obligations.JumpToItselfLoopsForever : Prop :=
  ∀ (s : State) (r : RegIdx) (xy : Addr), s.seq = .running → s.decodeAt s.pc = .jump r xy →
    s.readReg r = s.readReg 0 → xy &&& 0xFE = s.pc →
    ∃ t, step s = .next t ∧ t = { s with ir := s.wordAt s.pc, ia := s.pc } ∧ step t = .next t

/-! ### Invariants -/

/-- Every step keeps an even pc even: no instruction can make it odd (R54, R23). -/
def Obligations.StepKeepsThePcEven : Prop :=
  ∀ (s t : State), PcEven s → step s = .next t → PcEven t

/-- Every step and every host operation keeps the memory in canonical form, from every state that has it. The form is the model's
choice (log 7). -/
def Obligations.MemoryStaysCanonical : Prop :=
  (∀ (s t : State), MemCanonical s → step s = .next t → MemCanonical t) ∧
  (∀ (c : HostCall) (s t : State), MemCanonical s → hostCall c s = .next t → MemCanonical t)

/-- Every step and every host operation keeps the halt cause in agreement with the sequencer state: a cause is recorded exactly
while the machine is halted (R26, R118, R120). -/
def Obligations.HaltCauseStaysInAgreement : Prop :=
  (∀ (s t : State), HaltCauseAgrees s → step s = .next t → HaltCauseAgrees t) ∧
  (∀ (c : HostCall) (s t : State), HaltCauseAgrees s → hostCall c s = .next t → HaltCauseAgrees t)

/-- The three invariants hold of the state after reset. -/
def Obligations.ResetSatisfiesTheInvariants : Prop :=
  PcEven State.reset ∧ MemCanonical State.reset ∧ HaltCauseAgrees State.reset

/-- Two memories in canonical form that read alike at every address are equal data. The form is the model's choice (log 7). -/
def Obligations.CanonicalMemoriesThatReadAlikeAreEqual : Prop :=
  ∀ m m' : Memory, m.wf = true → m'.wf = true → (∀ a, m.read a = m'.read a) → m = m'

/-- Only `Reset()` and `PcSet` leave Halted, each of them leaves Idle with no halt cause, and host writes to registers and memory
leave the sequencer state as it is. Rests on R120, the spec's decision D19 (log 16). -/
def Obligations.OnlyResetAndPcSetLeaveHalted : Prop :=
  (∀ (c : HostCall) (s t : State), s.seq = .halted → hostCall c s = .next t → t.seq ≠ .halted →
    c = .reset ∨ ∃ v, c = .pcSet v) ∧
  (∀ s : State, (hostReset s).seq = .idle ∧ (hostReset s).hcause = .none) ∧
  (∀ (s : State) (v : Addr), (hostPcSet v s).seq = .idle ∧ (hostPcSet v s).hcause = .none) ∧
  (∀ (s : State) (r : RegIdx) (a : Addr) (v : Byte), (hostRegSet r v s).seq = s.seq ∧ (hostMemSet a v s).seq = s.seq)

/-- No step and no host operation changes the configuration (R29, R34). That it stands in the state is the model's choice (log 1). -/
def Obligations.ConfigurationNeverChanges : Prop :=
  ∀ (c : HostCall) (s t : State), hostCall c s = .next t → t.f8Policy = s.f8Policy

/-- The screen trace only grows, by at most one event, and only in a step that runs a Store whose `xy` is 0x00; the loader, the
host's writes, the host's reset and every other instruction append nothing (R28, R58, R147). Rests on the spec's decision D16
(log 16). -/
def Obligations.OnlyAStoreToZeroReachesTheScreen : Prop :=
  ∀ (c : HostCall) (s t : State), hostCall c s = .next t →
    t.scr = s.scr ++
      (if c = .step ∧ s.seq ≠ .halted then
        match s.decodeAt s.pc with
        | .store r xy => if xy = 0x00 then [if s.readReg r = 0x00 then .clear else .write (s.readReg r)] else []
        | _ => []
      else [])

/-! ### The instructions -/

/-- R140: Load1. -/
def Obligations.Load1CopiesTheCell : Prop :=
  ∀ (r : RegIdx) (xy : Addr) (s : State),
    decodeWord (0x1#4 ++ (regField r ++ xy)) = .load1 r xy ∧
    ∃ t, exec (.load1 r xy) s = .next t ∧ WritesReg r (s.readMem xy) s t

/-- R143: Load2. -/
def Obligations.Load2LoadsTheImmediate : Prop :=
  ∀ (r : RegIdx) (xy : Byte) (s : State),
    decodeWord (0x2#4 ++ (regField r ++ xy)) = .load2 r xy ∧
    ∃ t, exec (.load2 r xy) s = .next t ∧ WritesReg r xy s t

/-- R146: Store writes the cell `xy` and no other, and emits exactly one screen event when `xy` is 0x00 and none otherwise; no
register changes, nor the pc. -/
def Obligations.StoreWritesTheCellAndDrivesTheScreen : Prop :=
  ∀ (r : RegIdx) (xy : Addr) (s : State),
    decodeWord (0x3#4 ++ (regField r ++ xy)) = .store r xy ∧
    ∃ t, exec (.store r xy) s = .next t ∧
      t.readMem xy = s.readReg r ∧ (∀ a, a ≠ xy → t.readMem a = s.readMem a) ∧
      t.scr = s.scr ++ (if xy = 0x00 then [if s.readReg r = 0x00 then .clear else .write (s.readReg r)] else []) ∧
      (∀ q, t.readReg q = s.readReg q) ∧ t.pc = s.pc ∧ KeepsLatch s t ∧ Continues s t

/-- R150: Move, from `s` to `t`, whatever the ignored field holds. -/
def Obligations.MoveCopiesSourceToDestination : Prop :=
  ∀ (ign : BitVec 4) (src dst : RegIdx) (s : State),
    decodeWord (0x4#4 ++ (ign ++ regField src ++ regField dst)) = .move ign src dst ∧
    ∃ t, exec (.move ign src dst) s = .next t ∧ WritesReg dst (s.readReg src) s t

/-- R170: Add1 is addition modulo 256, and under the two's-complement reading the sum wrapped into -128..127. -/
def Obligations.Add1AddsModulo256 : Prop :=
  ∀ (r src1 src2 : RegIdx) (s : State),
    decodeWord (0x5#4 ++ (regField r ++ regField src1 ++ regField src2)) = .add1 r src1 src2 ∧
    ∃ (t : State) (v : Byte), exec (.add1 r src1 src2) s = .next t ∧ WritesReg r v s t ∧
      v.toNat = ((s.readReg src1).toNat + (s.readReg src2).toNat) % 256 ∧
      v.toInt = Int.bmod ((s.readReg src1).toInt + (s.readReg src2).toInt) 256

/-- R173, R175 and R177: Or, And and Xor, each bit of the result from the same bit of the two sources. -/
def Obligations.OrAndXorCombineBitwise : Prop :=
  ∀ (r src1 src2 : RegIdx) (s : State),
    (decodeWord (0x7#4 ++ (regField r ++ regField src1 ++ regField src2)) = .or r src1 src2 ∧
      ∃ (t : State) (v : Byte), exec (.or r src1 src2) s = .next t ∧ WritesReg r v s t ∧
        ∀ k, v.getLsbD k = ((s.readReg src1).getLsbD k || (s.readReg src2).getLsbD k)) ∧
    (decodeWord (0x8#4 ++ (regField r ++ regField src1 ++ regField src2)) = .and r src1 src2 ∧
      ∃ (t : State) (v : Byte), exec (.and r src1 src2) s = .next t ∧ WritesReg r v s t ∧
        ∀ k, v.getLsbD k = ((s.readReg src1).getLsbD k && (s.readReg src2).getLsbD k)) ∧
    (decodeWord (0x9#4 ++ (regField r ++ regField src1 ++ regField src2)) = .xor r src1 src2 ∧
      ∃ (t : State) (v : Byte), exec (.xor r src1 src2) s = .next t ∧ WritesReg r v s t ∧
        ∀ k, v.getLsbD k = ((s.readReg src1).getLsbD k ^^ (s.readReg src2).getLsbD k))

/-- R179 and R180: Rotate. Bit `k` of the result is bit `(k + n) mod 8` of the source, where `n` is the literal count modulo 8. -/
def Obligations.RotateTurnsRightByTheLiteral : Prop :=
  ∀ (r : RegIdx) (ign cnt : BitVec 4) (s : State),
    decodeWord (0xA#4 ++ (regField r ++ ign ++ cnt)) = .rotate r ign cnt ∧
    ∃ (t : State) (v : Byte), exec (.rotate r ign cnt) s = .next t ∧ WritesReg r v s t ∧
      ∀ k, k < 8 → v.getLsbD k = (s.readReg r).getLsbD ((k + cnt.toNat % 8) % 8)

/-- R220: Add2 adds the two decoded values exactly and encodes the sum, an integer number of 1/256 with `|S| ≤ 3840`, by the
machine's policy. -/
def Obligations.Add2AddsMiniFloats : Prop :=
  ∀ (r src1 src2 : RegIdx) (s : State),
    decodeWord (0x6#4 ++ (regField r ++ regField src1 ++ regField src2)) = .add2 r src1 src2 ∧
    ∃ (t : State) (units : Int), exec (.add2 r src1 src2) s = .next t ∧
      (units : ℚ) / 256 = f8Decode (s.readReg src1) + f8Decode (s.readReg src2) ∧ units.natAbs ≤ 3840 ∧
      WritesReg r (f8Encode s.f8Policy units) s t

/-- R240: Nothing, whatever its operand bits. -/
def Obligations.NothingHasNoEffect : Prop :=
  ∀ (ign : BitVec 12) (s : State),
    decodeWord (0x0#4 ++ ign) = .nothing ign ∧
    ∃ t, exec (.nothing ign) s = .next t ∧ KeepsData s t ∧ t.pc = s.pc ∧ KeepsLatch s t ∧ Continues s t

/-- R243: Jump goes to the target made even exactly when `x[r]` equals `x[0]`, and always with `r = 0` (a
consequence); it writes nothing but the pc. -/
def Obligations.JumpIsTakenExactlyOnEquality : Prop :=
  (∀ (r : RegIdx) (xy : Addr) (s : State),
    decodeWord (0xB#4 ++ (regField r ++ xy)) = .jump r xy ∧
    ∃ t, exec (.jump r xy) s = .next t ∧
      (s.readReg r = s.readReg 0 → t.pc.toNat = xy.toNat - xy.toNat % 2) ∧ (s.readReg r ≠ s.readReg 0 → t.pc = s.pc) ∧
      KeepsData s t ∧ KeepsLatch s t ∧ Continues s t) ∧
  (∀ (xy : Addr) (s : State), ∃ t, exec (.jump 0 xy) s = .next t ∧ t.pc.toNat = xy.toNat - xy.toNat % 2)

/-- R247: Halt, whatever its operand bits. As a behaviour it signals halt and changes nothing else; as a step it returns true, with
the pc 2 past the instruction. -/
def Obligations.HaltStopsTheMachine : Prop :=
  (∀ (ign : BitVec 12) (s : State),
    decodeWord (0xC#4 ++ ign) = .halt ign ∧
    ∃ t, exec (.halt ign) s = .next t ∧ Halts .haltInstr t ∧ KeepsData s t ∧ t.pc = s.pc ∧ KeepsLatch s t) ∧
  (∀ (ign : BitVec 12) (s : State), s.seq ≠ .halted → s.wordAt s.pc = 0xC#4 ++ ign →
    ∃ t, hostStep s = .next (t, true) ∧ Halts .haltInstr t ∧ KeepsData s t ∧ t.pc = s.pc + 2)

/-- The three Unused slots, whatever their operand bits. As behaviours they signal halt with the cause UnusedOpcode and change nothing
else; as steps they return true, with the pc 2 past the instruction. Rests on R249, whose cause is the spec's decision D6 (log 16). -/
def Obligations.UnusedOpcodesStopTheMachine : Prop :=
  (∀ (ign : BitVec 12) (s : State) (i : Instr), i = .unused13 ign ∨ i = .unused14 ign ∨ i = .unused15 ign →
    ∃ t, exec i s = .next t ∧ Halts .unusedOpcode t ∧ KeepsData s t ∧ t.pc = s.pc ∧ KeepsLatch s t) ∧
  (∀ ign : BitVec 12, decodeWord (0xD#4 ++ ign) = .unused13 ign ∧ decodeWord (0xE#4 ++ ign) = .unused14 ign ∧
    decodeWord (0xF#4 ++ ign) = .unused15 ign) ∧
  (∀ (op : BitVec 4) (ign : BitVec 12) (s : State), 13 ≤ op.toNat → s.seq ≠ .halted → s.wordAt s.pc = op ++ ign →
    ∃ t, hostStep s = .next (t, true) ∧ Halts .unusedOpcode t ∧ KeepsData s t ∧ t.pc = s.pc + 2)

/-! ### The mini-float codec -/

/-- Every byte decodes exactly to `D(b) / 256`, with `|D(b)| ≤ 1920`, and to zero exactly when its mantissa is zero. Rests on
R202 and on R203, an inference the spec marks as derived (log 16). -/
def Obligations.DecodedValuesAreMultiplesOf256ths : Prop :=
  ∀ b : Byte, f8Decode b = (f8Units b : ℚ) / 256 ∧ (f8Units b).natAbs ≤ 1920 ∧ (f8Units b = 0 ↔ b.toNat % 16 = 0)

/-- R207: an `E` of 0 to 7 that is `floor(log2 M) - 3` exists exactly when `8 ≤ M ≤ 2047`; and then, under every policy, the byte is
sign, `E` and `M >> E`, and `M >> E` is in 8..15. -/
def Obligations.NormalBandEncoding : Prop :=
  ∀ (p : F8RangePolicy) (units : Int),
    (8 ≤ units.natAbs ∧ units.natAbs ≤ 2047 ↔
      ∃ e : Nat, e ≤ 7 ∧ 2 ^ (e + 3) ≤ units.natAbs ∧ units.natAbs < 2 ^ (e + 4)) ∧
    ∀ e : Nat, e ≤ 7 → 2 ^ (e + 3) ≤ units.natAbs → units.natAbs < 2 ^ (e + 4) →
      8 ≤ units.natAbs / 2 ^ e ∧ units.natAbs / 2 ^ e ≤ 15 ∧
      (f8Encode p units).toNat = (if units < 0 then 128 else 0) + 16 * e + units.natAbs / 2 ^ e

/-- The table of R208, the spec's decision D7 (log 16): the three policies in the low band `1 ≤ M ≤ 7`, where `L = floor(log2 M)`,
and in the high band `2048 ≤ M ≤ 3840`, where `E = 8`. -/
def Obligations.OutOfBandEncoding : Prop :=
  (∀ (units : Int) (l : Nat), 1 ≤ units.natAbs → units.natAbs ≤ 7 → 2 ^ l ≤ units.natAbs → units.natAbs < 2 ^ (l + 1) →
    let sign := if units < 0 then 128 else 0
    (f8Encode .bounded units).toNat = sign + units.natAbs ∧
    (f8Encode .clamp units).toNat = sign + units.natAbs * 2 ^ (3 - l) ∧
    (f8Encode .wrap units).toNat = sign + 16 * (l + 5) + units.natAbs * 2 ^ (3 - l)) ∧
  (∀ units : Int, 2048 ≤ units.natAbs → units.natAbs ≤ 3840 →
    let sign := if units < 0 then 128 else 0
    (f8Encode .bounded units).toNat = sign + 16 * 7 + units.natAbs / 128 % 16 ∧
    (f8Encode .clamp units).toNat = sign + 16 * 7 + units.natAbs / 256 ∧
    (f8Encode .wrap units).toNat = sign + units.natAbs / 256)

/-- The loop algorithm and the closed forms give the same byte under `Bounded`. Rests on R209, an inference the spec marks as derived
(log 16). -/
def Obligations.BoundedLoopEqualsClosedForm : Prop :=
  ∀ units : Int, units.natAbs ≤ 3840 → f8EncodeBoundedLoop units = f8Encode .bounded units

/-- Under `Bounded` every byte's value survives encode and decode; under `Clamp` and `Wrap` this fails for exactly 22 bytes; and
`Encode(Decode(b)) = b` fails under `Bounded` for 113 bytes. Rests on R210, partly marked as derived, and on the spec's decision D7
(log 16). -/
def Obligations.RoundTripLaws : Prop :=
  (∀ b : Byte, f8Units (f8Encode .bounded (f8Units b)) = f8Units b) ∧
  (∀ (p : F8RangePolicy) (b : Byte), p = .clamp ∨ p = .wrap →
    (f8Units (f8Encode p (f8Units b)) ≠ f8Units b ↔
      b.toNat % 128 ∈ [0x01, 0x02, 0x03, 0x04, 0x05, 0x06, 0x07, 0x11, 0x12, 0x13, 0x21])) ∧
  ((List.range 256).filter (fun n => f8Encode .bounded (f8Units (BitVec.ofNat 8 n)) != BitVec.ofNat 8 n)).length = 113

/-- In the normal band the encoded magnitude is the sum truncated toward zero, by less than one unit of the last mantissa bit, with
the sum's sign. Derived from R207 and R211. -/
def Obligations.NormalBandTruncatesTowardZero : Prop :=
  ∀ (p : F8RangePolicy) (units : Int), 8 ≤ units.natAbs → units.natAbs ≤ 2047 →
    let b := f8Encode p units
    (f8Units b).natAbs ≤ units.natAbs ∧ units.natAbs < (f8Units b).natAbs + 2 ^ f8Exponent b ∧ 0 < f8Units b * units

/-- A sum of zero encodes to 0x00, whatever signs the operands had and whatever the policy. Rests on R206, the spec's decision D8
(log 16). -/
def Obligations.ZeroSumGivesZeroByte : Prop :=
  ∀ (r src1 src2 : RegIdx) (s : State), f8Decode (s.readReg src1) + f8Decode (s.readReg src2) = 0 →
    ∃ t, exec (.add2 r src1 src2) s = .next t ∧ t.readReg r = 0x00

/-- Add2 is commutative in its two sources. Rests on R221, an inference the spec marks as derived (log 16). -/
def Obligations.Add2Commutes : Prop :=
  ∀ (r src1 src2 : RegIdx) (s : State), exec (.add2 r src1 src2) s = exec (.add2 r src2 src1) s

/-! ### Reset, construction, the host's operations -/

/-- `Reset()` from any state (R33, R300). That it leaves the trace is the spec's decision D16, the cause D6, the latch values D4
(log 16). -/
def Obligations.ResetZeroesTheMachine : Prop :=
  ∀ s : State,
    (∀ r, (hostReset s).readReg r = 0x00) ∧ (hostReset s).pc = 0x00 ∧ (∀ a, (hostReset s).readMem a = 0x00) ∧
    (hostReset s).seq = .idle ∧ (hostReset s).hcause = .none ∧ (hostReset s).ir = 0x0000 ∧ (hostReset s).ia = 0x00 ∧
    (hostReset s).scr = s.scr ∧ (hostReset s).f8Policy = s.f8Policy

/-- Construction (R302, R87): a non-standard table is refused by name; under `Zero` the machine is in the reset state; under
`Unspecified` every register, the pc and every cell holds its draw, with Idle and no halt cause. Rests on the spec's decisions D1
and D9 (log 16); how the draw is given is the model's choice (log 3), and that the refusal is one error of construction too (log
2). -/
def Obligations.ConstructionGivesThePowerOnState : Prop :=
  (∀ (d : DispatchTable) (p : F8RangePolicy) (o : PowerOn), d ≠ DispatchTable.standard →
    construct d p o = .error .nonStandardDispatchTable) ∧
  (∀ p : F8RangePolicy, construct DispatchTable.standard p .zero = .ok { State.reset with f8Policy := p }) ∧
  (∀ (p : F8RangePolicy) (regs : Vector Byte 16) (pc : Byte) (cells : Vector Byte 256),
    ∃ t, construct DispatchTable.standard p (.unspecified regs pc cells) = .ok t ∧
      (∀ r : RegIdx, t.readReg r = regs[r]) ∧ t.pc = pc ∧ (∀ a : Addr, t.readMem a = cells[a.toNat]) ∧
      t.seq = .idle ∧ t.hcause = .none ∧ t.f8Policy = p ∧ MemCanonical t)

/-- The host's reads and writes (R32, the spec's decision D19, log 16). Each write changes one cell, one register, or the pc with
`seq` and `hcause`, and nothing else; none reaches the screen. -/
def Obligations.HostAccessReadsAndWritesOnePlace : Prop :=
  ∀ s : State,
    (∀ (a : Addr) (v : Byte),
      (∀ b, hostMemGet b (hostMemSet a v s) = if b = a then v else hostMemGet b s) ∧
      (hostMemSet a v s).x = s.x ∧ (hostMemSet a v s).pc = s.pc ∧ hostStatusGet (hostMemSet a v s) = hostStatusGet s ∧
      (hostMemSet a v s).scr = s.scr ∧ KeepsLatch s (hostMemSet a v s)) ∧
    (∀ (r : RegIdx) (v : Byte),
      (∀ q, hostRegGet q (hostRegSet r v s) = if q = r then v else hostRegGet q s) ∧
      (hostRegSet r v s).mem = s.mem ∧ (hostRegSet r v s).pc = s.pc ∧ hostStatusGet (hostRegSet r v s) = hostStatusGet s ∧
      (hostRegSet r v s).scr = s.scr ∧ KeepsLatch s (hostRegSet r v s)) ∧
    (∀ v : Addr,
      hostPcGet (hostPcSet v s) = v ∧ hostStatusGet (hostPcSet v s) = (.idle, .none) ∧
      (hostPcSet v s).x = s.x ∧ (hostPcSet v s).mem = s.mem ∧ (hostPcSet v s).scr = s.scr ∧ KeepsLatch s (hostPcSet v s))

/-! ### Run -/

/-- `Run()` called in Halted returns after one `Step()` that changes nothing, and counts no step (R122, R128). The bound is the
model's (log 9). -/
def Obligations.RunInHaltedReturnsAtOnce : Prop :=
  ∀ (n : Nat) (s : State), s.seq = .halted → hostRun (n + 1) s = .next ⟨s, true, 0⟩

/-- A bounded run is repeated `Step()`: it answers, the state it reaches is that of as many steps as it counted, it has ended
exactly if that state is Halted and a `Step()` was made, and one that has not ended has used its whole bound (R121, R124, R128).
The bound is the model's (log 9). -/
def Obligations.RunIsRepeatedStep : Prop :=
  ∀ (n : Nat) (s : State), ∃ report, hostRun n s = .next report ∧
    Sys2Proof.core.run report.executed s = .next report.state ∧
    (report.ended = true → report.state.seq = .halted) ∧
    (report.ended = false → report.executed = n) ∧ report.executed ≤ n ∧
    (report.ended = true ↔ n ≠ 0 ∧ report.state.seq = .halted)

/-- Over memory that holds 0x00 in every cell, a step from Idle or Running runs Nothing: it leaves Running, the pc 2 further modulo
256, and every cell still 0x00; so from every such state, the state after reset among them, no bound on `Run()` is enough. Rests on
R241, an inference the spec marks as derived (log 16). The bound is the model's choice (log 9). -/
def Obligations.RunOverZeroMemoryNeverEnds : Prop :=
  ∀ s : State, s.seq ≠ .halted → (∀ a, s.readMem a = 0x00) →
    (∃ t, step s = .next t ∧ t.seq = .running ∧ t.pc = s.pc + 2 ∧ ∀ a, t.readMem a = 0x00) ∧
    ∀ n : Nat, ∃ report, hostRun n s = .next report ∧ report.ended = false ∧ report.executed = n ∧
      report.state.pc.toNat = (s.pc.toNat + 2 * n) % 256 ∧ ∀ a, report.state.readMem a = 0x00

/-! ### The program loader -/

/-- `LoadProgram`, successful or not, changes memory cells only. Rests on R305, the spec's decision D14 (log 16). -/
def Obligations.LoadProgramWritesMemoryOnly : Prop :=
  ∀ (source : ProgramSource) (start : Addr) (s : State),
    let t := (hostLoadProgram source start s).state
    t.x = s.x ∧ t.pc = s.pc ∧ t.seq = s.seq ∧ t.hcause = s.hcause ∧ t.scr = s.scr ∧ KeepsLatch s t

/-- From R306, the spec's decision D13 (log 16): tokens that all are hexadecimal and fit are written, high byte then low byte,
from `start` on; no other cell changes, and the load succeeds. -/
def Obligations.LoadProgramWritesEveryToken : Prop :=
  ∀ (chars : List Char) (start : Addr) (s : State) (words : List Word),
    (tokens chars).map parseToken = words.map some → start.toNat + 2 * words.length ≤ 256 →
    let report := hostLoadProgram (.text chars) start s
    report.error = none ∧
    (∀ (i : Nat) (h : i < words.length),
      report.state.readMem (BitVec.ofNat 8 (start.toNat + 2 * i)) = (words[i]).extractLsb' 8 8 ∧
      report.state.readMem (BitVec.ofNat 8 (start.toNat + 2 * i + 1)) = (words[i]).extractLsb' 0 8) ∧
    (∀ a : Addr, a.toNat < start.toNat ∨ start.toNat + 2 * words.length ≤ a.toNat →
      report.state.readMem a = s.readMem a)

/-- From R307, the spec's decision D13 (log 16): with more tokens than fit, the load fails with `TooManyInstructions`; the first
`floor((256 - start) / 2)` tokens are in memory and no other cell changes, so the failing token writes no byte. -/
def Obligations.LoadProgramStopsAtCapacity : Prop :=
  ∀ (chars : List Char) (start : Addr) (s : State) (words : List Word),
    (tokens chars).map parseToken = words.map some → 256 < start.toNat + 2 * words.length →
    let report := hostLoadProgram (.text chars) start s
    let capacity := (256 - start.toNat) / 2
    report.error = some .tooManyInstructions ∧
    (∀ (i : Nat) (h : i < words.length), i < capacity →
      report.state.readMem (BitVec.ofNat 8 (start.toNat + 2 * i)) = (words[i]).extractLsb' 8 8 ∧
      report.state.readMem (BitVec.ofNat 8 (start.toNat + 2 * i + 1)) = (words[i]).extractLsb' 0 8) ∧
    (∀ a : Addr, a.toNat < start.toNat ∨ start.toNat + 2 * capacity ≤ a.toNat →
      report.state.readMem a = s.readMem a)

/-- R308: a token that is not hexadecimal ends the load with `StreamReadFailed`; the state is the one that loading the
tokens before it gives, with nothing rolled back and nothing more written. -/
def Obligations.BadTokenEndsTheLoadWithoutRollback : Prop :=
  ∀ (good rest : List (List Char)) (bad : List Char) (at_ : Nat) (s : State),
    (loadTokens good at_ s).error = none → parseToken bad = none →
    loadTokens (good ++ bad :: rest) at_ s = ⟨(loadTokens good at_ s).state, some .streamReadFailed⟩

/-- R310: a source that cannot be opened is reported and changes nothing. -/
def Obligations.UnopenableSourceChangesNothing : Prop :=
  ∀ (start : Addr) (s : State), hostLoadProgram .unopenable start s = ⟨s, some .fileOpenFailed⟩

/-- From R311, the spec's decision D12 (log 16): tokens are the maximal runs of characters that are no separators; one is accepted
exactly when it is 1 to 4 hexadecimal digits, and its value is the hexadecimal number; a text of separators only is a successful
load that writes nothing. -/
def Obligations.TokenGrammar : Prop :=
  (∀ c : Char, isSeparator c = true ↔ c ∈ [' ', '\t', '\r', '\n']) ∧
  (∀ (a b : List Char) (c : Char), isSeparator c = true → tokens (a ++ c :: b) = tokens a ++ tokens b) ∧
  (∀ a : List Char, a ≠ [] → (∀ c ∈ a, isSeparator c = false) → tokens a = [a]) ∧
  (∀ a : List Char, (parseToken a).isSome = true ↔
    1 ≤ a.length ∧ a.length ≤ 4 ∧
      ∀ c ∈ a, c ∈ ['0', '1', '2', '3', '4', '5', '6', '7', '8', '9', 'a', 'b', 'c', 'd', 'e', 'f', 'A', 'B', 'C', 'D', 'E', 'F']) ∧
  (∀ (a : List Char) (w : Word), parseToken a = some w →
    w.toNat = a.foldl (fun n c =>
      16 * n + ['0', '1', '2', '3', '4', '5', '6', '7', '8', '9', 'a', 'b', 'c', 'd', 'e', 'f'].idxOf c.toLower) 0) ∧
  (∀ (a : List Char) (start : Addr) (s : State), (∀ c ∈ a, isSeparator c = true) →
    hostLoadProgram (.text a) start s = ⟨s, none⟩)
end

