-- ==== Sys2Proof/Laws/Decode.lean ====
section
/-! SUPPORT. The fields of a word that is written as its opcode nibble and operand fields. -/

namespace Sys2Proof

/-- A field inside the low part of an append. -/
theorem extract_append_low {n m : Nat} (a : BitVec n) (b : BitVec m) {k len : Nat} (h : k + len ≤ m) :
    (a ++ b).extractLsb' k len = b.extractLsb' k len := by
  apply BitVec.eq_of_getLsbD_eq
  intro i hi
  have hk : k + i < m := by omega
  simp [BitVec.getLsbD_extractLsb', BitVec.getLsbD_append, hk]

/-- A field inside the high part of an append. -/
theorem extract_append_high {n m : Nat} (a : BitVec n) (b : BitVec m) {k len : Nat} (h : m ≤ k) :
    (a ++ b).extractLsb' k len = a.extractLsb' (k - m) len := by
  apply BitVec.eq_of_getLsbD_eq
  intro i hi
  have hk : ¬ k + i < m := by omega
  have e : k + i - m = k - m + i := by omega
  simp [BitVec.getLsbD_extractLsb', BitVec.getLsbD_append, hk, e]

/-- A field that is the whole vector. -/
theorem extract_all {n : Nat} (a : BitVec n) : a.extractLsb' 0 n = a := by
  apply BitVec.eq_of_getLsbD_eq
  intro i hi
  simp [hi]

/-- The opcode nibble of `op ++ rest` (R81). -/
theorem opcode_of_append (op : BitVec 4) (rest : BitVec 12) : BitVec.extractLsb' (n := 16) 12 4 (op ++ rest) = op :=
  (extract_append_high op rest (k := 12) (len := 4) (by decide)).trans (extract_all op)

/-- The twelve operand bits of `op ++ rest`. -/
theorem operands_of_append (op : BitVec 4) (rest : BitVec 12) : BitVec.extractLsb' (n := 16) 0 12 (op ++ rest) = rest :=
  (extract_append_low op rest (k := 0) (len := 12) (by decide)).trans (extract_all rest)

/-- Any field below bit 12 of `op ++ rest` is that field of `rest`. -/
theorem field_of_append (op : BitVec 4) (rest : BitVec 12) (k len : Nat) (h : k + len ≤ 12) :
    BitVec.extractLsb' (n := 16) k len (op ++ rest) = rest.extractLsb' k len :=
  extract_append_low op rest h

/-- Two appends agree when written right to left or left to right; for splitting a word into its fields. -/
theorem append_extract {w : Nat} (n m : Nat) (a : BitVec w) :
    a.extractLsb' m n ++ a.extractLsb' 0 m = a.extractLsb' 0 (n + m) := by
  apply BitVec.eq_of_getLsbD_eq
  intro i hi
  simp only [BitVec.getLsbD_append, BitVec.getLsbD_extractLsb']
  by_cases h : i < m
  · simp [h, hi]
  · have h' : i - m < n := by omega
    have e : m + (i - m) = i := by omega
    simp [h, h', hi, e]

end Sys2Proof
end

