-- ==== Sys2Proof/Laws/Memory.lean ====
section
/-! SUPPORT. What the memory operations do: a read after a write, and the canonical form that every one keeps. -/

namespace Sys2Proof.Machine

/-! ### Reading -/

theorem Memory.lookup_erase (m : Memory) (k j : Nat) :
    (m.erase k).lookup j = if j = k then Memory.unlisted else m.lookup j := by
  induction m with
  | nil => simp [Memory.erase, Memory.lookup]
  | cons e rest ih =>
    obtain ⟨k', v⟩ := e
    by_cases hk : k' = k
    · subst hk
      simp only [Memory.erase, if_true, ih, Memory.lookup]
      by_cases hj : j = k'
      · simp [hj]
      · simp [hj, Ne.symm hj]
    · by_cases hj : j = k
      · subst hj
        simp [Memory.erase, Memory.lookup, ih, hk]
      · simp [Memory.erase, Memory.lookup, ih, hk, hj]

theorem Memory.lookup_insert (m : Memory) (k j : Nat) (v : Byte) :
    (m.insert k v).lookup j = if j = k then v else m.lookup j := by
  induction m with
  | nil => simp [Memory.insert, Memory.lookup, eq_comm]
  | cons e rest ih =>
    obtain ⟨k', v'⟩ := e
    by_cases hle : k ≤ k'
    · simp [Memory.insert, Memory.lookup, hle, eq_comm]
    · by_cases hj : j = k
      · have hne : k' ≠ j := by omega
        simp only [Memory.insert, hle, if_false, Memory.lookup, hne, ih]
      · simp [Memory.insert, Memory.lookup, hle, ih, hj]

/-- A read after a write: the written byte at its address, every other byte as before. It holds of every list. -/
theorem Memory.read_write (m : Memory) (a b : Addr) (v : Byte) :
    (m.write a v).read b = if b = a then v else m.read b := by
  have hab : (b.toNat = a.toNat) ↔ b = a := BitVec.toNat_inj
  by_cases hv : v = Memory.unlisted
  · simp only [Memory.write, Memory.read, hv, if_true, Memory.lookup_erase, hab]
  · simp only [Memory.write, Memory.read, hv, if_false, Memory.lookup_insert, Memory.lookup_erase, hab]
    split <;> rfl

@[simp] theorem Memory.read_nil (a : Addr) : Memory.read [] a = 0x00 := rfl

/-! ### The canonical form -/

theorem Memory.wfFrom_cons (lo k : Nat) (v : Byte) (rest : Memory) :
    Memory.wfFrom lo ((k, v) :: rest) = true ↔
      lo ≤ k ∧ k < 256 ∧ v ≠ Memory.unlisted ∧ Memory.wfFrom (k + 1) rest = true := by
  simp [Memory.wfFrom, and_assoc]

theorem Memory.wfFrom_mono {lo lo' : Nat} {m : Memory} (hle : lo ≤ lo') (h : Memory.wfFrom lo' m = true) :
    Memory.wfFrom lo m = true := by
  cases m with
  | nil => rfl
  | cons e rest =>
    rw [Memory.wfFrom_cons] at h ⊢
    exact ⟨hle.trans h.1, h.2⟩

theorem Memory.wfFrom_erase {lo : Nat} {m : Memory} (k : Nat) (h : Memory.wfFrom lo m = true) :
    Memory.wfFrom lo (m.erase k) = true := by
  induction m generalizing lo with
  | nil => rfl
  | cons e rest ih =>
    obtain ⟨k', v⟩ := e
    rw [Memory.wfFrom_cons] at h
    obtain ⟨hlo, hk, hv, hrest⟩ := h
    by_cases hkk : k' = k
    · simpa [Memory.erase, hkk] using ih (Memory.wfFrom_mono (by omega) hrest)
    · simpa [Memory.erase, hkk, Memory.wfFrom_cons] using ⟨hlo, hk, hv, ih hrest⟩

theorem Memory.erase_ne (m : Memory) (k : Nat) : ∀ e ∈ m.erase k, e.1 ≠ k := by
  induction m with
  | nil => simp [Memory.erase]
  | cons e rest ih =>
    obtain ⟨k', v⟩ := e
    by_cases hkk : k' = k
    · simpa [Memory.erase, hkk] using ih
    · simpa [Memory.erase, hkk] using ih

theorem Memory.wfFrom_insert {lo : Nat} {m : Memory} {k : Nat} {v : Byte} (h : Memory.wfFrom lo m = true)
    (hlo : lo ≤ k) (hk : k < 256) (hv : v ≠ Memory.unlisted) (hne : ∀ e ∈ m, e.1 ≠ k) :
    Memory.wfFrom lo (m.insert k v) = true := by
  induction m generalizing lo with
  | nil => simp [Memory.insert, Memory.wfFrom, hlo, hk, hv]
  | cons e rest ih =>
    obtain ⟨k', v'⟩ := e
    rw [Memory.wfFrom_cons] at h
    obtain ⟨hlo', hk', hv', hrest⟩ := h
    have hkk : k' ≠ k := hne (k', v') (by simp)
    by_cases hle : k ≤ k'
    · simp only [Memory.insert, hle, if_true, Memory.wfFrom_cons]
      exact ⟨hlo, hk, hv, by omega, hk', hv', hrest⟩
    · simp only [Memory.insert, hle, if_false, Memory.wfFrom_cons]
      exact ⟨hlo', hk', hv', ih hrest (by omega) (fun e he => hne e (by simp [he]))⟩

/-- A write keeps the canonical form. -/
theorem Memory.wf_write {m : Memory} (a : Addr) (v : Byte) (h : m.wf = true) : (m.write a v).wf = true := by
  unfold Memory.write
  split
  · exact Memory.wfFrom_erase _ h
  · next hv =>
    exact Memory.wfFrom_insert (Memory.wfFrom_erase _ h) (Nat.zero_le _) a.isLt hv (Memory.erase_ne _ _)

/-- The memory built from a list of cells is in canonical form. -/
theorem Memory.wf_ofCells (start : Nat) (cells : List Byte) : (Memory.ofCells start cells).wf = true := by
  induction cells generalizing start with
  | nil => rfl
  | cons v rest ih => exact Memory.wf_write _ _ (ih (start + 1))

/-- The reset memory is in canonical form. -/
theorem State.reset_mem_wf : State.reset.mem.wf = true := rfl

end Sys2Proof.Machine
end

