-- ==== Sys2Proof/Laws/State.lean ====
section
/-! SUPPORT. One lemma per field per update of the state, each true by unfolding, so that no later proof unfolds an update. -/

namespace Sys2Proof.Machine

/-! ### writeReg -/

@[simp] theorem State.writeReg_x (s : State) (r : RegIdx) (v : Byte) : (s.writeReg r v).x = s.x.set r v := rfl
@[simp] theorem State.writeReg_pc (s : State) (r : RegIdx) (v : Byte) : (s.writeReg r v).pc = s.pc := rfl
@[simp] theorem State.writeReg_ir (s : State) (r : RegIdx) (v : Byte) : (s.writeReg r v).ir = s.ir := rfl
@[simp] theorem State.writeReg_ia (s : State) (r : RegIdx) (v : Byte) : (s.writeReg r v).ia = s.ia := rfl
@[simp] theorem State.writeReg_seq (s : State) (r : RegIdx) (v : Byte) : (s.writeReg r v).seq = s.seq := rfl
@[simp] theorem State.writeReg_hcause (s : State) (r : RegIdx) (v : Byte) : (s.writeReg r v).hcause = s.hcause := rfl
@[simp] theorem State.writeReg_mem (s : State) (r : RegIdx) (v : Byte) : (s.writeReg r v).mem = s.mem := rfl
@[simp] theorem State.writeReg_scr (s : State) (r : RegIdx) (v : Byte) : (s.writeReg r v).scr = s.scr := rfl
@[simp] theorem State.writeReg_f8Policy (s : State) (r : RegIdx) (v : Byte) : (s.writeReg r v).f8Policy = s.f8Policy := rfl

/-! ### writePc -/

@[simp] theorem State.writePc_x (s : State) (v : Addr) : (s.writePc v).x = s.x := rfl
@[simp] theorem State.writePc_pc (s : State) (v : Addr) : (s.writePc v).pc = v := rfl
@[simp] theorem State.writePc_ir (s : State) (v : Addr) : (s.writePc v).ir = s.ir := rfl
@[simp] theorem State.writePc_ia (s : State) (v : Addr) : (s.writePc v).ia = s.ia := rfl
@[simp] theorem State.writePc_seq (s : State) (v : Addr) : (s.writePc v).seq = s.seq := rfl
@[simp] theorem State.writePc_hcause (s : State) (v : Addr) : (s.writePc v).hcause = s.hcause := rfl
@[simp] theorem State.writePc_mem (s : State) (v : Addr) : (s.writePc v).mem = s.mem := rfl
@[simp] theorem State.writePc_scr (s : State) (v : Addr) : (s.writePc v).scr = s.scr := rfl
@[simp] theorem State.writePc_f8Policy (s : State) (v : Addr) : (s.writePc v).f8Policy = s.f8Policy := rfl

/-! ### writeMem -/

@[simp] theorem State.writeMem_x (s : State) (a : Addr) (v : Byte) : (s.writeMem a v).x = s.x := rfl
@[simp] theorem State.writeMem_pc (s : State) (a : Addr) (v : Byte) : (s.writeMem a v).pc = s.pc := rfl
@[simp] theorem State.writeMem_ir (s : State) (a : Addr) (v : Byte) : (s.writeMem a v).ir = s.ir := rfl
@[simp] theorem State.writeMem_ia (s : State) (a : Addr) (v : Byte) : (s.writeMem a v).ia = s.ia := rfl
@[simp] theorem State.writeMem_seq (s : State) (a : Addr) (v : Byte) : (s.writeMem a v).seq = s.seq := rfl
@[simp] theorem State.writeMem_hcause (s : State) (a : Addr) (v : Byte) : (s.writeMem a v).hcause = s.hcause := rfl
@[simp] theorem State.writeMem_mem (s : State) (a : Addr) (v : Byte) : (s.writeMem a v).mem = s.mem.write a v := rfl
@[simp] theorem State.writeMem_scr (s : State) (a : Addr) (v : Byte) : (s.writeMem a v).scr = s.scr := rfl
@[simp] theorem State.writeMem_f8Policy (s : State) (a : Addr) (v : Byte) : (s.writeMem a v).f8Policy = s.f8Policy := rfl

/-! ### emitScreen -/

@[simp] theorem State.emitScreen_x (s : State) (e : ScreenEvent) : (s.emitScreen e).x = s.x := rfl
@[simp] theorem State.emitScreen_pc (s : State) (e : ScreenEvent) : (s.emitScreen e).pc = s.pc := rfl
@[simp] theorem State.emitScreen_ir (s : State) (e : ScreenEvent) : (s.emitScreen e).ir = s.ir := rfl
@[simp] theorem State.emitScreen_ia (s : State) (e : ScreenEvent) : (s.emitScreen e).ia = s.ia := rfl
@[simp] theorem State.emitScreen_seq (s : State) (e : ScreenEvent) : (s.emitScreen e).seq = s.seq := rfl
@[simp] theorem State.emitScreen_hcause (s : State) (e : ScreenEvent) : (s.emitScreen e).hcause = s.hcause := rfl
@[simp] theorem State.emitScreen_mem (s : State) (e : ScreenEvent) : (s.emitScreen e).mem = s.mem := rfl
@[simp] theorem State.emitScreen_scr (s : State) (e : ScreenEvent) : (s.emitScreen e).scr = s.scr ++ [e] := rfl
@[simp] theorem State.emitScreen_f8Policy (s : State) (e : ScreenEvent) : (s.emitScreen e).f8Policy = s.f8Policy := rfl

/-! ### latch -/

@[simp] theorem State.latch_x (s : State) : (s.latch).x = s.x := rfl
@[simp] theorem State.latch_pc (s : State) : (s.latch).pc = s.pc + 2 := rfl
@[simp] theorem State.latch_ir (s : State) : (s.latch).ir = s.wordAt s.pc := rfl
@[simp] theorem State.latch_ia (s : State) : (s.latch).ia = s.pc := rfl
@[simp] theorem State.latch_seq (s : State) : (s.latch).seq = s.seq := rfl
@[simp] theorem State.latch_hcause (s : State) : (s.latch).hcause = s.hcause := rfl
@[simp] theorem State.latch_mem (s : State) : (s.latch).mem = s.mem := rfl
@[simp] theorem State.latch_scr (s : State) : (s.latch).scr = s.scr := rfl
@[simp] theorem State.latch_f8Policy (s : State) : (s.latch).f8Policy = s.f8Policy := rfl

/-! ### signalContinue -/

@[simp] theorem State.signalContinue_x (s : State) : (s.signalContinue).x = s.x := rfl
@[simp] theorem State.signalContinue_pc (s : State) : (s.signalContinue).pc = s.pc := rfl
@[simp] theorem State.signalContinue_ir (s : State) : (s.signalContinue).ir = s.ir := rfl
@[simp] theorem State.signalContinue_ia (s : State) : (s.signalContinue).ia = s.ia := rfl
@[simp] theorem State.signalContinue_seq (s : State) : (s.signalContinue).seq = .running := rfl
@[simp] theorem State.signalContinue_hcause (s : State) : (s.signalContinue).hcause = s.hcause := rfl
@[simp] theorem State.signalContinue_mem (s : State) : (s.signalContinue).mem = s.mem := rfl
@[simp] theorem State.signalContinue_scr (s : State) : (s.signalContinue).scr = s.scr := rfl
@[simp] theorem State.signalContinue_f8Policy (s : State) : (s.signalContinue).f8Policy = s.f8Policy := rfl

/-! ### signalHalt -/

@[simp] theorem State.signalHalt_x (s : State) (c : HaltCause) : (s.signalHalt c).x = s.x := rfl
@[simp] theorem State.signalHalt_pc (s : State) (c : HaltCause) : (s.signalHalt c).pc = s.pc := rfl
@[simp] theorem State.signalHalt_ir (s : State) (c : HaltCause) : (s.signalHalt c).ir = s.ir := rfl
@[simp] theorem State.signalHalt_ia (s : State) (c : HaltCause) : (s.signalHalt c).ia = s.ia := rfl
@[simp] theorem State.signalHalt_seq (s : State) (c : HaltCause) : (s.signalHalt c).seq = .halted := rfl
@[simp] theorem State.signalHalt_hcause (s : State) (c : HaltCause) : (s.signalHalt c).hcause = c := rfl
@[simp] theorem State.signalHalt_mem (s : State) (c : HaltCause) : (s.signalHalt c).mem = s.mem := rfl
@[simp] theorem State.signalHalt_scr (s : State) (c : HaltCause) : (s.signalHalt c).scr = s.scr := rfl
@[simp] theorem State.signalHalt_f8Policy (s : State) (c : HaltCause) : (s.signalHalt c).f8Policy = s.f8Policy := rfl

/-! ### setPcFromHost -/

@[simp] theorem State.setPcFromHost_x (s : State) (v : Addr) : (s.setPcFromHost v).x = s.x := rfl
@[simp] theorem State.setPcFromHost_pc (s : State) (v : Addr) : (s.setPcFromHost v).pc = v := rfl
@[simp] theorem State.setPcFromHost_ir (s : State) (v : Addr) : (s.setPcFromHost v).ir = s.ir := rfl
@[simp] theorem State.setPcFromHost_ia (s : State) (v : Addr) : (s.setPcFromHost v).ia = s.ia := rfl
@[simp] theorem State.setPcFromHost_seq (s : State) (v : Addr) : (s.setPcFromHost v).seq = .idle := rfl
@[simp] theorem State.setPcFromHost_hcause (s : State) (v : Addr) : (s.setPcFromHost v).hcause = .none := rfl
@[simp] theorem State.setPcFromHost_mem (s : State) (v : Addr) : (s.setPcFromHost v).mem = s.mem := rfl
@[simp] theorem State.setPcFromHost_scr (s : State) (v : Addr) : (s.setPcFromHost v).scr = s.scr := rfl
@[simp] theorem State.setPcFromHost_f8Policy (s : State) (v : Addr) : (s.setPcFromHost v).f8Policy = s.f8Policy := rfl

end Sys2Proof.Machine
end

