-- ==== Sys2Proof/Laws/Ops.lean ====
section
/-! SUPPORT. For each shared operation, once, what it does; and what a step can do. -/

namespace Sys2Proof.Machine

/-! ### Reads after updates -/

/-- A register read after a register write. -/
theorem State.readReg_writeReg (s : State) (r q : RegIdx) (v : Byte) :
    (s.writeReg r v).readReg q = if q = r then v else s.readReg q := by
  by_cases h : q = r
  · subst h; simp [State.readReg, State.writeReg]
  · have hn : r.val ≠ q.val := fun e => h (Fin.ext e.symm)
    simp [State.readReg, State.writeReg, h, hn]

/-- A byte read after a byte written. -/
theorem State.readMem_writeMem (s : State) (a b : Addr) (v : Byte) :
    (s.writeMem a v).readMem b = if b = a then v else s.readMem b :=
  Memory.read_write s.mem a b v

/-- A read depends on the register file alone. -/
theorem State.readReg_congr {s t : State} (h : t.x = s.x) (q : RegIdx) : t.readReg q = s.readReg q := by
  simp [State.readReg, h]

/-- A read depends on the memory alone. -/
theorem State.readMem_congr {s t : State} (h : t.mem = s.mem) (a : Addr) : t.readMem a = s.readMem a := by
  simp [State.readMem, h]

@[simp] theorem State.writeMem_readReg (s : State) (a : Addr) (v : Byte) (q : RegIdx) :
    (s.writeMem a v).readReg q = s.readReg q := rfl
@[simp] theorem State.writeReg_readMem (s : State) (r : RegIdx) (v : Byte) (a : Addr) :
    (s.writeReg r v).readMem a = s.readMem a := rfl
@[simp] theorem State.writePc_readReg (s : State) (v : Addr) (q : RegIdx) : (s.writePc v).readReg q = s.readReg q := rfl
@[simp] theorem State.writePc_readMem (s : State) (v : Addr) (a : Addr) : (s.writePc v).readMem a = s.readMem a := rfl
@[simp] theorem State.emitScreen_readReg (s : State) (e : ScreenEvent) (q : RegIdx) :
    (s.emitScreen e).readReg q = s.readReg q := rfl
@[simp] theorem State.emitScreen_readMem (s : State) (e : ScreenEvent) (a : Addr) :
    (s.emitScreen e).readMem a = s.readMem a := rfl
@[simp] theorem State.latch_readReg (s : State) (q : RegIdx) : s.latch.readReg q = s.readReg q := rfl
@[simp] theorem State.latch_readMem (s : State) (a : Addr) : s.latch.readMem a = s.readMem a := rfl
@[simp] theorem State.signalContinue_readReg (s : State) (q : RegIdx) : s.signalContinue.readReg q = s.readReg q := rfl
@[simp] theorem State.signalContinue_readMem (s : State) (a : Addr) : s.signalContinue.readMem a = s.readMem a := rfl
@[simp] theorem State.signalHalt_readReg (s : State) (c : HaltCause) (q : RegIdx) :
    (s.signalHalt c).readReg q = s.readReg q := rfl
@[simp] theorem State.signalHalt_readMem (s : State) (c : HaltCause) (a : Addr) :
    (s.signalHalt c).readMem a = s.readMem a := rfl

/-- The sequencer test, as a proposition. -/
theorem State.isHalted_iff (s : State) : s.isHalted = true ↔ s.seq = .halted := by
  simp [State.isHalted]

/-! ### The step and the loader -/

/-- What a step can do: nothing in `Halted`, and otherwise the behaviour of the word at the pc, run after the latch. -/
theorem step_cases {s t : State} (h : step s = .next t) :
    (s.seq = .halted ∧ t = s) ∨ (s.seq ≠ .halted ∧ exec (decodeWord (s.wordAt s.pc)) s.latch = .next t) := by
  unfold step at h
  by_cases hs : s.seq = .halted
  · rw [if_pos (s.isHalted_iff.2 hs)] at h
    cases h
    exact .inl ⟨hs, rfl⟩
  · rw [if_neg (fun e => hs (s.isHalted_iff.1 e))] at h
    exact .inr ⟨hs, h⟩

/-- A token that is not hexadecimal ends the load and writes nothing. -/
theorem loadTokens_bad {token : List Char} (rest : List (List Char)) (at_ : Nat) (s : State)
    (h : parseToken token = none) : loadTokens (token :: rest) at_ s = ⟨s, some .streamReadFailed⟩ := by
  simp [loadTokens, h]

/-- A token past the last cell ends the load and writes nothing. -/
theorem loadTokens_full {token : List Char} {w : Word} (rest : List (List Char)) {at_ : Nat} (s : State)
    (h : parseToken token = some w) (hat : 255 < at_ + 1) :
    loadTokens (token :: rest) at_ s = ⟨s, some .tooManyInstructions⟩ := by
  simp [loadTokens, h, hat]

/-- Any other token's two bytes are written, and the load goes on behind them. -/
theorem loadTokens_good {token : List Char} {w : Word} (rest : List (List Char)) {at_ : Nat} (s : State)
    (h : parseToken token = some w) (hat : at_ + 1 ≤ 255) :
    loadTokens (token :: rest) at_ s =
      loadTokens rest (at_ + 2)
        ((s.writeMem (BitVec.ofNat 8 at_) (w.extractLsb' 8 8)).writeMem (BitVec.ofNat 8 (at_ + 1)) (w.extractLsb' 0 8)) := by
  simp [loadTokens, h, Nat.not_lt.2 hat]

end Sys2Proof.Machine
end

