-- ==== Sys2Proof/Laws/PerInstr.lean ====
section
/-! SUPPORT. The statements made per instruction. `MatchesItsRow`: an instruction's word matches its row of
spec/opcode_table.json, `word &&& mask = match` with every mask 0xF000 (30_encoding.md). -/

namespace Sys2Proof.Laws

/-- The `match` value of an instruction's row. -/
def rowMatch : Instr → Word
  | .nothing _ => 0x0000
  | .load1 _ _ => 0x1000
  | .load2 _ _ => 0x2000
  | .store _ _ => 0x3000
  | .move _ _ _ => 0x4000
  | .add1 _ _ _ => 0x5000
  | .add2 _ _ _ => 0x6000
  | .or _ _ _ => 0x7000
  | .and _ _ _ => 0x8000
  | .xor _ _ _ => 0x9000
  | .rotate _ _ _ => 0xA000
  | .jump _ _ => 0xB000
  | .halt _ => 0xC000
  | .unused13 _ => 0xD000
  | .unused14 _ => 0xE000
  | .unused15 _ => 0xF000

/-- The instruction's word matches its row, and its fields keep R81's invariant. -/
def MatchesItsRow.Statement (i : Instr) : Prop :=
  encode i &&& 0xF000 = rowMatch i ∧ (fieldsOf (encode i)).wellFormed = true

/-- Every word's fields keep R81's invariant `operandXY == (operand2 << 4) | operand3`. -/
theorem fieldsOf_wellFormed (w : Word) : (fieldsOf w).wellFormed = true := by
  simp only [Fields.wellFormed, fieldsOf, beq_iff_eq]
  apply BitVec.eq_of_getLsbD_eq
  intro k hk
  simp only [BitVec.getLsbD_extractLsb', BitVec.getLsbD_append]
  by_cases h : k < 4
  · simp [h, hk]
  · have h4 : k - 4 < 4 := by omega
    have e : 4 + (k - 4) = k := by omega
    simp [h, hk, h4, e]

/-- A word of an opcode nibble and twelve more bits, masked to the nibble. -/
theorem append_and_mask (op : BitVec 4) (rest : BitVec 12) : (op ++ rest : Word) &&& 0xF000 = op ++ (0 : BitVec 12) := by
  have h : (0xF000 : Word) = (0xF : BitVec 4) ++ (0 : BitVec 12) := by decide
  have hop : op &&& (0xF : BitVec 4) = op := by revert op; decide
  rw [h, BitVec.and_append, hop]
  simp

/-- A word that begins with a row's opcode nibble matches that row. -/
theorem row_of_append {w : Word} (op : BitVec 4) (row : Word) (rest : BitVec 12) (hw : w = op ++ rest)
    (hrow : (op ++ (0 : BitVec 12) : Word) = row) : w &&& 0xF000 = row := by
  rw [hw, append_and_mask, hrow]

theorem MatchesItsRow.nothing (ign : BitVec 12) : MatchesItsRow.Statement (.nothing ign) :=
  ⟨row_of_append 0x0 _ ign rfl (by simp only [rowMatch]; decide), fieldsOf_wellFormed _⟩

theorem MatchesItsRow.load1 (r : RegIdx) (xy : Addr) : MatchesItsRow.Statement (.load1 r xy) :=
  ⟨row_of_append 0x1 _ (regField r ++ xy) rfl (by simp only [rowMatch]; decide), fieldsOf_wellFormed _⟩

theorem MatchesItsRow.load2 (r : RegIdx) (xy : Byte) : MatchesItsRow.Statement (.load2 r xy) :=
  ⟨row_of_append 0x2 _ (regField r ++ xy) rfl (by simp only [rowMatch]; decide), fieldsOf_wellFormed _⟩

theorem MatchesItsRow.store (r : RegIdx) (xy : Addr) : MatchesItsRow.Statement (.store r xy) :=
  ⟨row_of_append 0x3 _ (regField r ++ xy) rfl (by simp only [rowMatch]; decide), fieldsOf_wellFormed _⟩

theorem MatchesItsRow.move (ign : BitVec 4) (s t : RegIdx) : MatchesItsRow.Statement (.move ign s t) :=
  ⟨row_of_append 0x4 _ (ign ++ regField s ++ regField t) rfl (by simp only [rowMatch]; decide), fieldsOf_wellFormed _⟩

theorem MatchesItsRow.add1 (r s t : RegIdx) : MatchesItsRow.Statement (.add1 r s t) :=
  ⟨row_of_append 0x5 _ (regField r ++ regField s ++ regField t) rfl (by simp only [rowMatch]; decide), fieldsOf_wellFormed _⟩

theorem MatchesItsRow.add2 (r s t : RegIdx) : MatchesItsRow.Statement (.add2 r s t) :=
  ⟨row_of_append 0x6 _ (regField r ++ regField s ++ regField t) rfl (by simp only [rowMatch]; decide), fieldsOf_wellFormed _⟩

theorem MatchesItsRow.or (r s t : RegIdx) : MatchesItsRow.Statement (.or r s t) :=
  ⟨row_of_append 0x7 _ (regField r ++ regField s ++ regField t) rfl (by simp only [rowMatch]; decide), fieldsOf_wellFormed _⟩

theorem MatchesItsRow.and (r s t : RegIdx) : MatchesItsRow.Statement (.and r s t) :=
  ⟨row_of_append 0x8 _ (regField r ++ regField s ++ regField t) rfl (by simp only [rowMatch]; decide), fieldsOf_wellFormed _⟩

theorem MatchesItsRow.xor (r s t : RegIdx) : MatchesItsRow.Statement (.xor r s t) :=
  ⟨row_of_append 0x9 _ (regField r ++ regField s ++ regField t) rfl (by simp only [rowMatch]; decide), fieldsOf_wellFormed _⟩

theorem MatchesItsRow.rotate (r : RegIdx) (ign t : BitVec 4) : MatchesItsRow.Statement (.rotate r ign t) :=
  ⟨row_of_append 0xA _ (regField r ++ ign ++ t) rfl (by simp only [rowMatch]; decide), fieldsOf_wellFormed _⟩

theorem MatchesItsRow.jump (r : RegIdx) (xy : Addr) : MatchesItsRow.Statement (.jump r xy) :=
  ⟨row_of_append 0xB _ (regField r ++ xy) rfl (by simp only [rowMatch]; decide), fieldsOf_wellFormed _⟩

theorem MatchesItsRow.halt (ign : BitVec 12) : MatchesItsRow.Statement (.halt ign) :=
  ⟨row_of_append 0xC _ ign rfl (by simp only [rowMatch]; decide), fieldsOf_wellFormed _⟩

theorem MatchesItsRow.unused13 (ign : BitVec 12) : MatchesItsRow.Statement (.unused13 ign) :=
  ⟨row_of_append 0xD _ ign rfl (by simp only [rowMatch]; decide), fieldsOf_wellFormed _⟩

theorem MatchesItsRow.unused14 (ign : BitVec 12) : MatchesItsRow.Statement (.unused14 ign) :=
  ⟨row_of_append 0xE _ ign rfl (by simp only [rowMatch]; decide), fieldsOf_wellFormed _⟩

theorem MatchesItsRow.unused15 (ign : BitVec 12) : MatchesItsRow.Statement (.unused15 ign) :=
  ⟨row_of_append 0xF _ ign rfl (by simp only [rowMatch]; decide), fieldsOf_wellFormed _⟩

end Sys2Proof.Laws
end

