-- ==== Sys2Proof/Tests/Slice0.lean ====
section
/-! SUPPORT. The model's own tests: words written out from the spec's encodings, vectors of 95_test_vectors.md, and for every
obligation with hypotheses a state and operands that meet them. -/

namespace Sys2Proof.Tests

open Sys2Proof Sys2Proof.Machine

/-! ### Helpers -/

/-- The reset state with a word at address 0x00, where the next step fetches it. -/
def loaded (w : Nat) : State := State.reset.withFetchWord 16 w

/-- The same with `x[1]` and `x[2]` set. -/
def loaded2 (w : Nat) (a b : Byte) : State := ((loaded w).writeReg 1 a).writeReg 2 b

/-- The state after one step (the state itself, should the step stop). -/
def after (s : State) : State :=
  match step s with
  | .next t => t
  | _ => s

/-- A halted machine: the reset state after a Halt. -/
def halted : State := after (loaded 0xC000)

/-! ### Ill-formed terms are refused -/

theorem test_ill_formed_fields_refused : Fields.wellFormed ⟨1, 0, 3, 0xC, 0x3D⟩ = false := by decide
theorem test_well_formed_fields_accepted : Fields.wellFormed ⟨1, 0, 3, 0xC, 0x3C⟩ = true := by decide
theorem test_ill_formed_table_refused :
    DispatchTable.wellFormed (DispatchTable.standard.set 13 (.other 0)) = false := by decide
theorem test_non_standard_table_refused :
    construct (DispatchTable.standard.set 13 (.other 0)) .bounded .zero = .error .nonStandardDispatchTable := by decide
theorem test_construction_defaults : construct = .ok State.reset := by decide
theorem test_truncated_bytes_refused : decode [0x10] = .error .truncated := rfl

/-! ### Decoding: words written bit by bit from 30_encoding.md R86, operands as in 95_test_vectors.md section 2.1 -/

theorem test_decode_nothing : decodeWord 0b0000111111111111 = .nothing 0xFFF := by decide
theorem test_decode_load1 : decodeWord 0b0001101000111100 = .load1 10 0x3C := by decide
theorem test_decode_load2 : decodeWord 0b0010101111111111 = .load2 11 0xFF := by decide
theorem test_decode_store : decodeWord 0b0011000100000000 = .store 1 0x00 := by decide
theorem test_decode_move : decodeWord 0b0100111100010010 = .move 0xF 1 2 := by decide
theorem test_decode_add1 : decodeWord 0b0101001100010010 = .add1 3 1 2 := by decide
theorem test_decode_add2 : decodeWord 0b0110111011011100 = .add2 14 13 12 := by decide
theorem test_decode_or : decodeWord 0b0111001100010010 = .or 3 1 2 := by decide
theorem test_decode_and : decodeWord 0b1000001100010010 = .and 3 1 2 := by decide
theorem test_decode_xor : decodeWord 0b1001001100010010 = .xor 3 1 2 := by decide
theorem test_decode_rotate : decodeWord 0b1010011111110011 = .rotate 7 0xF 3 := by decide
theorem test_decode_jump : decodeWord 0b1011000011111110 = .jump 0 0xFE := by decide
theorem test_decode_halt : decodeWord 0b1100000001111111 = .halt 0x07F := by decide
theorem test_decode_unused13 : decodeWord 0b1101000000000000 = .unused13 0x000 := by decide
theorem test_decode_unused14 : decodeWord 0b1110000000000001 = .unused14 0x001 := by decide
theorem test_decode_unused15 : decodeWord 0b1111111111111111 = .unused15 0xFFF := by decide

/-- R82's instance L1-2: the bytes 5A 3C. -/
theorem test_fields_5A3C : fieldsOf (wordOfBytes 0x5A 0x3C) = ⟨5, 0xA, 3, 0xC, 0x3C⟩ := by decide
theorem test_table_word_bytes : decodeTableWord 16 0x5A3C = some (.add1 10 3 12) := by decide
theorem test_encode_bytes_in_memory_order : encodeBytes (.add1 10 3 12) = [0x5A, 0x3C] := by decide

/-- R95's notation and R96's `PUTC`. -/
theorem test_notation_load1 : showInstr (.load1 10 0x3C) = "LOAD1 R10, [0x3C]" := by decide
theorem test_pseudo_putc : encode (Pseudo.putc 2).expand = 0x3200 := by decide

/-! ### One step of each instruction (95_test_vectors.md sections 1 and 2) -/

/-- V40, at 0x10: nothing but the pc. -/
theorem test_nothing_pc : (after ((State.reset.setPcFromHost 0x10))).pc = 0x12 := by decide
/-- V1. -/
theorem test_load1 : (after ((loaded 0x1580).writeMem 0x80 0xAB)).readReg 5 = 0xAB := by decide
/-- V3: a Load1 of its own low byte. -/
theorem test_load1_own_byte : (after (loaded 0x1001)).readReg 0 = 0x01 := by decide
/-- V4. -/
theorem test_load2 : (after (loaded 0x2AFF)).readReg 10 = 0xFF := by decide
/-- V6: the cell and the screen event. -/
theorem test_store_screen :
    (after (loaded2 0x3100 0x41 0)).readMem 0x00 = 0x41 ∧ (after (loaded2 0x3100 0x41 0)).scr = [.write 0x41] := by decide
/-- V7: a zero clears the screen. -/
theorem test_store_clear : (after (loaded2 0x3200 0x41 0)).scr = [.clear] := by decide
/-- V12: Move ignores the field `r`. -/
theorem test_move : (after (loaded2 0x4F12 0x3C 0)).readReg 2 = 0x3C ∧ (after (loaded2 0x4F12 0x3C 0)).readReg 15 = 0 := by
  decide
/-- V20. -/
theorem test_add1_wraps : (after (loaded2 0x5312 0xFF 0x02)).readReg 3 = 0x01 := by decide
/-- V25: the destination is a source. -/
theorem test_add1_destination_is_source : (after (loaded2 0x5112 0x12 0x34)).readReg 1 = 0x46 := by decide
/-- 43_float.md R220. -/
theorem test_add2 : (after (loaded2 0x6312 0x48 0x48)).readReg 3 = 0x58 := by decide
/-- 95_test_vectors.md section 2.4, last row, under the default policy. -/
theorem test_add2_high_band : (after (loaded2 0x6312 0x7F 0x7F)).readReg 3 = 0x7E := by decide
/-- V26. -/
theorem test_or : (after (loaded2 0x7312 0xF0 0x0F)).readReg 3 = 0xFF := by decide
/-- V27. -/
theorem test_and : (after (loaded2 0x8312 0xF0 0x3C)).readReg 3 = 0x30 := by decide
/-- V28. -/
theorem test_xor : (after (loaded2 0x9312 0xF0 0x3C)).readReg 3 = 0xCC := by decide
/-- 42_integer_logic.md R179's example, in register 1. -/
theorem test_rotate : (after (loaded2 0xA103 0xB4 0)).readReg 1 = 0x96 := by decide
/-- The count is the literal modulo 8, and the field `s` is ignored. -/
theorem test_rotate_fifteen : (after (loaded2 0xA1FF 0x81 0)).readReg 1 = 0x03 := by decide
/-- V41 and L1-8: taken, and to an odd target. -/
theorem test_jump_taken : (after (loaded 0xB105)).pc = 0x04 := by decide
/-- V42: not taken. -/
theorem test_jump_not_taken : (after (loaded2 0xB130 0x07 0)).pc = 0x02 := by decide
/-- V45. -/
theorem test_halt : (after (loaded 0xC07F)).seq = .halted ∧ (after (loaded 0xC07F)).hcause = .haltInstr ∧
    (after (loaded 0xC07F)).pc = 0x02 := by decide
/-- V46, and the same for the two other slots. -/
theorem test_unused15 : (after (loaded 0xF123)).hcause = .unusedOpcode ∧ (after (loaded 0xF123)).pc = 0x02 := by decide
theorem test_unused14 : (after (loaded 0xE000)).hcause = .unusedOpcode := by decide
theorem test_unused13 : (after (loaded 0xD000)).hcause = .unusedOpcode := by decide

/-- V51: a fetch at 0xFF takes its low byte from 0x00. -/
theorem test_fetch_at_FF :
    (after (((State.reset.writeMem 0xFF 0x21).writeMem 0x00 0x99).setPcFromHost 0xFF)).ir = 0x2199 ∧
    (after (((State.reset.writeMem 0xFF 0x21).writeMem 0x00 0x99).setPcFromHost 0xFF)).pc = 0x01 := by decide
/-- V48. -/
theorem test_pc_set_leaves_halted : hostStatusGet (hostPcSet 0x00 halted) = (.idle, .none) := by decide
/-- The fetch word of a halted machine runs. -/
theorem test_fetch_word_wakes : (after (halted.withFetchWord 16 0x2AFF)).readReg 10 = 0xFF := by decide

/-! ### The codec under the other policies, and the loader (95_test_vectors.md sections 2.4 and 2.7) -/

theorem test_encode_clamp : f8Encode .clamp (f8Sum 0x7F 0x48) = 0x78 ∧ f8Encode .clamp (f8Sum 0x01 0x02) = 0x0C := by decide
theorem test_encode_wrap : f8Encode .wrap (f8Sum 0x7F 0x48) = 0x08 ∧ f8Encode .wrap (f8Sum 0x01 0x02) = 0x6C := by decide
theorem test_encode_negative : f8Encode .bounded (-896) = 0xEE := by decide
theorem test_encode_request_refused : f8EncodeRequest .bounded 3841 = .error .encodeOutsideDomain := by decide
/-- V62: the bad token ends the load, and what was written stays. -/
theorem test_load_bad_token :
    hostLoadProgram (.text ['2', '1', '0', '5', ' ', 'z', 'z', ' ', '3', '1', '0', '0']) 0 State.reset =
      ⟨(State.reset.writeMem 0 0x21).writeMem 1 0x05, some .streamReadFailed⟩ := by decide
/-- R7: a load that names no start begins at 0x00. -/
theorem test_load_default_start :
    (hostLoadProgramAtDefault (.text ['1', '0', '0', '3', ' ', 'C', '0', '0', '0']) State.reset).state.mem =
      [(0x00, 0x10), (0x01, 0x03), (0x02, 0xC0)] ∧
    hostCall (.loadProgram (.text ['1', '0', '0', '3'])) State.reset =
      .next (hostLoadProgramAtDefault (.text ['1', '0', '0', '3']) State.reset).state := ⟨by decide, rfl⟩
/-- V65: the second token passes 0xFF and writes nothing. -/
theorem test_load_capacity :
    (hostLoadProgram (.text ['1', '1', '1', '1', '\n', '2', '2', '2', '2']) 0xFD State.reset).error = some .tooManyInstructions ∧
    (hostLoadProgram (.text ['1', '1', '1', '1', '\n', '2', '2', '2', '2']) 0xFD State.reset).state.mem =
      [(0xFD, 0x11), (0xFE, 0x11)] := by decide
/-- V63 and V64. -/
theorem test_tokens : parseToken ['1', '2', '3', '4', '5'] = none ∧ parseToken ['a', 'b'] = some 0x00AB := by decide

/-! ### Witnesses: the hypotheses of each obligation can be met -/

theorem witness_EveryWordSelectsItsTableEntry : 13 ≤ (fieldsOf 0xD000).op.toNat ∧ 13 ≤ (fieldsOf 0xFFFF).op.toNat := by decide

theorem witness_StepRunsTheDecodedInstruction :
    (loaded 0x1580).seq ≠ .halted ∧
    decode [(loaded 0x1580).readMem (loaded 0x1580).pc, (loaded 0x1580).readMem ((loaded 0x1580).pc + 1)] =
      .ok (.load1 5 0x80, []) := ⟨by decide, rfl⟩

theorem witness_StepInHaltedChangesNothing : halted.seq = .halted := by decide

theorem witness_RunInHaltedReturnsAtOnce : halted.seq = .halted := by decide

theorem witness_StepSetsTheSequencerState :
    ((loaded 0xC000).seq ≠ .halted ∧ step (loaded 0xC000) = .next (after (loaded 0xC000)) ∧
      ((loaded 0xC000).decodeAt (loaded 0xC000).pc).behaviour = .halt) ∧
    ((loaded 0xD000).seq ≠ .halted ∧ step (loaded 0xD000) = .next (after (loaded 0xD000)) ∧
      ((loaded 0xD000).decodeAt (loaded 0xD000).pc).behaviour = .unused) ∧
    ((loaded 0x2AFF).seq ≠ .halted ∧ step (loaded 0x2AFF) = .next (after (loaded 0x2AFF)) ∧
      ((loaded 0x2AFF).decodeAt (loaded 0x2AFF).pc).behaviour = .load2) :=
  ⟨⟨by decide, rfl, by decide⟩, ⟨by decide, rfl, by decide⟩, ⟨by decide, rfl, by decide⟩⟩

theorem witness_PcAfterAStep :
    ((loaded 0xB105).seq ≠ .halted ∧ step (loaded 0xB105) = .next (after (loaded 0xB105)) ∧
      (loaded 0xB105).decodeAt (loaded 0xB105).pc = .jump 1 0x05) ∧
    ((loaded2 0xB130 7 0).seq ≠ .halted ∧ step (loaded2 0xB130 7 0) = .next (after (loaded2 0xB130 7 0)) ∧
      (loaded2 0xB130 7 0).readReg 1 ≠ (loaded2 0xB130 7 0).readReg 0) :=
  ⟨⟨by decide, rfl, by decide⟩, ⟨by decide, rfl, by decide⟩⟩

/-- The reset state with the pc at the top of memory. -/
def atTop (a : Addr) : State := State.reset.setPcFromHost a

theorem witness_FetchAndPcWrapAtTheTop :
    ((atTop 0xFF).seq ≠ .halted ∧ (atTop 0xFF).pc = 0xFF ∧ step (atTop 0xFF) = .next (after (atTop 0xFF))) ∧
    ((atTop 0xFE).seq ≠ .halted ∧ (atTop 0xFE).pc = 0xFE ∧
      ((atTop 0xFE).decodeAt (atTop 0xFE).pc).behaviour ≠ .jump ∧ step (atTop 0xFE) = .next (after (atTop 0xFE))) :=
  ⟨⟨by decide, by decide, rfl⟩, ⟨by decide, by decide, by decide, rfl⟩⟩

/-- An odd pc at both ends of memory, where Nothing runs; and one with a taken Jump at it. -/
theorem witness_OddPcStaysOddUntilATakenJump :
    ((atTop 0x01).seq ≠ .halted ∧ ¬ PcEven (atTop 0x01)) ∧ ((atTop 0xFF).seq ≠ .halted ∧ ¬ PcEven (atTop 0xFF)) ∧
    (((atTop 0x41).withFetchWord 16 0xB105).seq ≠ .halted ∧ ¬ PcEven ((atTop 0x41).withFetchWord 16 0xB105) ∧
      ((atTop 0x41).withFetchWord 16 0xB105).decodeAt ((atTop 0x41).withFetchWord 16 0xB105).pc = .jump 1 0x05 ∧
      ((atTop 0x41).withFetchWord 16 0xB105).readReg 1 = ((atTop 0x41).withFetchWord 16 0xB105).readReg 0) := by
  unfold PcEven; decide

/-- A Store of its own low byte, of the screen cell, and of the byte after it. -/
theorem witness_StoreIsSeenByLaterFetchesNotByItself :
    ((loaded 0x3101).seq ≠ .halted ∧ (loaded 0x3101).decodeAt (loaded 0x3101).pc = .store 1 0x01) ∧
    ((loaded 0x3100).seq ≠ .halted ∧ (loaded 0x3100).decodeAt (loaded 0x3100).pc = .store 1 0x00) ∧
    ((loaded 0x3102).seq ≠ .halted ∧ (loaded 0x3102).decodeAt (loaded 0x3102).pc = .store 1 0x02) := by decide

theorem witness_JumpToItselfLoopsForever :
    (loaded 0xB000).signalContinue.seq = .running ∧
    (loaded 0xB000).signalContinue.decodeAt (loaded 0xB000).signalContinue.pc = .jump 0 0x00 ∧
    (loaded 0xB000).signalContinue.readReg 0 = (loaded 0xB000).signalContinue.readReg 0 ∧
    (0x00 : Addr) &&& 0xFE = (loaded 0xB000).signalContinue.pc := by decide

theorem witness_StepKeepsThePcEven : PcEven (loaded 0xB105) ∧ step (loaded 0xB105) = .next (after (loaded 0xB105)) :=
  ⟨rfl, rfl⟩

theorem witness_MemoryStaysCanonical :
    MemCanonical (loaded 0x3180) ∧ step (loaded 0x3180) = .next (after (loaded 0x3180)) ∧
    hostCall (.memSet 0x80 0x12) (loaded 0x3180) = .next (hostMemSet 0x80 0x12 (loaded 0x3180)) :=
  ⟨by rw [MemCanonical]; decide, rfl, rfl⟩

theorem witness_HaltCauseStaysInAgreement :
    HaltCauseAgrees (loaded 0xC000) ∧ step (loaded 0xC000) = .next halted ∧
    HaltCauseAgrees halted ∧ hostCall (.pcSet 0x00) halted = .next (hostPcSet 0x00 halted) :=
  ⟨by rw [HaltCauseAgrees]; decide, rfl, by rw [HaltCauseAgrees]; decide, rfl⟩

theorem witness_CanonicalMemoriesThatReadAlikeAreEqual :
    Memory.wf [(0x03, 0x7F)] = true ∧ ∀ a, Memory.read [(0x03, 0x7F)] a = Memory.read [(0x03, 0x7F)] a :=
  ⟨by decide, fun _ => rfl⟩

theorem witness_OnlyResetAndPcSetLeaveHalted :
    halted.seq = .halted ∧ hostCall .reset halted = .next (hostReset halted) ∧ (hostReset halted).seq ≠ .halted ∧
    hostCall (.pcSet 0x00) halted = .next (hostPcSet 0x00 halted) ∧ (hostPcSet 0x00 halted).seq ≠ .halted :=
  ⟨by decide, rfl, by decide, rfl, by decide⟩

theorem witness_ConfigurationNeverChanges : hostCall .reset halted = .next (hostReset halted) := rfl

theorem witness_OnlyAStoreToZeroReachesTheScreen :
    hostCall .step (loaded2 0x3100 0x41 0) = .next (after (loaded2 0x3100 0x41 0)) ∧
    hostCall .step (loaded2 0x3101 0x41 0) = .next (after (loaded2 0x3101 0x41 0)) ∧
    hostCall (.memSet 0x00 0x41) State.reset = .next (hostMemSet 0x00 0x41 State.reset) := ⟨rfl, rfl, rfl⟩

theorem witness_JumpIsTakenExactlyOnEquality :
    (loaded2 0xB130 7 0).readReg 1 ≠ (loaded2 0xB130 7 0).readReg 0 ∧
    (loaded2 0xB230 7 0).readReg 2 = (loaded2 0xB230 7 0).readReg 0 := by decide

theorem witness_HaltStopsTheMachine :
    (loaded 0xC07F).seq ≠ .halted ∧ (loaded 0xC07F).wordAt (loaded 0xC07F).pc = 0xC#4 ++ 0x07F#12 := by decide

theorem witness_UnusedOpcodesStopTheMachine :
    (Instr.unused13 0x123 = .unused13 0x123) ∧
    (13 ≤ (0xD#4).toNat ∧ (loaded 0xD123).seq ≠ .halted ∧ (loaded 0xD123).wordAt (loaded 0xD123).pc = 0xD#4 ++ 0x123#12) ∧
    (13 ≤ (0xF#4).toNat ∧ (loaded 0xF123).seq ≠ .halted ∧ (loaded 0xF123).wordAt (loaded 0xF123).pc = 0xF#4 ++ 0x123#12) := by
  decide

theorem witness_NormalBandEncoding :
    (2 ^ (0 + 3) ≤ (-8 : Int).natAbs ∧ (-8 : Int).natAbs < 2 ^ (0 + 4)) ∧
    (2 ^ (7 + 3) ≤ (2047 : Int).natAbs ∧ (2047 : Int).natAbs < 2 ^ (7 + 4)) := by decide

theorem witness_OutOfBandEncoding :
    (1 ≤ (1 : Int).natAbs ∧ (1 : Int).natAbs ≤ 7 ∧ 2 ^ 0 ≤ (1 : Int).natAbs ∧ (1 : Int).natAbs < 2 ^ 1) ∧
    (1 ≤ (-7 : Int).natAbs ∧ (-7 : Int).natAbs ≤ 7 ∧ 2 ^ 2 ≤ (-7 : Int).natAbs ∧ (-7 : Int).natAbs < 2 ^ 3) ∧
    (2048 ≤ (2048 : Int).natAbs ∧ (2048 : Int).natAbs ≤ 3840) ∧ (2048 ≤ (-3840 : Int).natAbs ∧ (-3840 : Int).natAbs ≤ 3840) := by
  decide

theorem witness_BoundedLoopEqualsClosedForm :
    (0 : Int).natAbs ≤ 3840 ∧ (-3840 : Int).natAbs ≤ 3840 ∧ f8EncodeBoundedLoop (-3840) = 0xFE := by decide

theorem witness_RoundTripLaws :
    F8RangePolicy.clamp = .clamp ∧ f8Units (f8Encode .clamp (f8Units 0x01)) ≠ f8Units 0x01 ∧
    f8Units (f8Encode .clamp (f8Units 0x08)) = f8Units 0x08 := by decide

theorem witness_NormalBandTruncatesTowardZero :
    8 ≤ (1025 : Int).natAbs ∧ (1025 : Int).natAbs ≤ 2047 ∧ f8Encode .bounded 1025 = 0x78 := by decide

theorem witness_ZeroSumGivesZeroByte :
    f8Decode ((loaded2 0x6312 0x5A 0xDA).readReg 1) + f8Decode ((loaded2 0x6312 0x5A 0xDA).readReg 2) = 0 := by
  have h1 : (loaded2 0x6312 0x5A 0xDA).readReg 1 = 0x5A := by decide
  have h2 : (loaded2 0x6312 0x5A 0xDA).readReg 2 = 0xDA := by decide
  have s1 : f8Sign 0x5A = false ∧ f8Mantissa 0x5A = 10 ∧ f8Exponent 0x5A = 5 := by decide
  have s2 : f8Sign 0xDA = true ∧ f8Mantissa 0xDA = 10 ∧ f8Exponent 0xDA = 5 := by decide
  rw [h1, h2, f8Decode, f8Decode, s1.1, s1.2.1, s1.2.2, s2.1, s2.2.1, s2.2.2]
  norm_num

theorem witness_ConstructionGivesThePowerOnState :
    DispatchTable.standard.set 13 (.other 0) ≠ DispatchTable.standard := by decide

/-- The reset state, and a running one with an odd pc. -/
theorem witness_RunOverZeroMemoryNeverEnds :
    (State.reset.seq ≠ .halted ∧ ∀ a, State.reset.readMem a = 0x00) ∧
    ((atTop 0xFF).signalContinue.seq ≠ .halted ∧ ∀ a, (atTop 0xFF).signalContinue.readMem a = 0x00) :=
  ⟨⟨by decide, fun _ => rfl⟩, ⟨by decide, fun _ => rfl⟩⟩

theorem witness_LoadProgramWritesEveryToken :
    (tokens ['1', '0', '0', '3', ' ', 'C', '0']).map parseToken = [0x1003, 0x00C0].map some ∧
    (0xFC : Addr).toNat + 2 * [0x1003, 0x00C0].length ≤ 256 := by decide

theorem witness_LoadProgramStopsAtCapacity :
    (tokens ['1', '0', '0', '3', ' ', 'C', '0']).map parseToken = [0x1003, 0x00C0].map some ∧
    256 < (0xFD : Addr).toNat + 2 * [0x1003, 0x00C0].length ∧ 256 < (0xFF : Addr).toNat + 2 * [0x1003, 0x00C0].length := by
  decide

theorem witness_BadTokenEndsTheLoadWithoutRollback :
    (loadTokens [['2', '1', '0', '5']] 0 State.reset).error = none ∧ parseToken ['z', 'z'] = none := by decide

theorem witness_TokenGrammar :
    isSeparator ' ' = true ∧ isSeparator 'C' = false ∧ parseToken ['C', '0', '7', 'f'] = some 0xC07F := by decide

end Sys2Proof.Tests
end

section
/-! The family 30_encoding.md: the fields of the two bytes at an address (R82), and the table entry that a word selects
(R85, R110, R112). -/

namespace Sys2Proof.Proofs

open Sys2Proof Sys2Proof.Machine

/-! ### The fields of two bytes -/

/-- The high nibble of a byte, as a number. -/
theorem highNibble_toNat (b : Byte) : (b.extractLsb' 4 4).toNat = b.toNat / 16 := by
  have hb : b.toNat / 16 < 2 ^ 4 := by omega
  rw [BitVec.extractLsb'_toNat, Nat.shiftRight_eq_div_pow, Nat.mod_eq_of_lt hb]

/-- The low nibble of a byte, as a number. -/
theorem lowNibble_toNat (b : Byte) : (b.extractLsb' 0 4).toNat = b.toNat % 16 := by
  rw [BitVec.extractLsb'_toNat, Nat.shiftRight_zero]

/-- R82's fields: the nibbles of the high byte are `op` and `r`, those of the low byte `s` and `t`, and `xy` is the low byte. -/
theorem fieldsOf_wordOfBytes (hi lo : Byte) :
    fieldsOf (wordOfBytes hi lo) =
      ⟨hi.extractLsb' 4 4, hi.extractLsb' 0 4, lo.extractLsb' 4 4, lo.extractLsb' 0 4, lo⟩ := by
  have op : (hi ++ lo).extractLsb' 12 4 = hi.extractLsb' 4 4 := extract_append_high hi lo (by decide)
  have r : (hi ++ lo).extractLsb' 8 4 = hi.extractLsb' 0 4 := extract_append_high hi lo (by decide)
  have s : (hi ++ lo).extractLsb' 4 4 = lo.extractLsb' 4 4 := extract_append_low hi lo (by decide)
  have t : (hi ++ lo).extractLsb' 0 4 = lo.extractLsb' 0 4 := extract_append_low hi lo (by decide)
  have xy : (hi ++ lo).extractLsb' 0 8 = lo := (extract_append_low hi lo (by decide)).trans (extract_all lo)
  simp only [fieldsOf, wordOfBytes, op, r, s, t, xy]

/-- Settles O3: the fields are the nibbles of the two bytes, and a byte is 16 times its high nibble plus its low one. -/
theorem fieldsOfTheBytesAtAnAddress : Obligations.FieldsOfTheBytesAtAnAddress := by
  intro s a
  simp only [State.wordAt, fieldsOf_wordOfBytes, highNibble_toNat, lowNibble_toNat, Nat.div_add_mod', and_self]

/-! ### The table entry of a word -/

/-- R112: the instruction decoded from a word of opcode `op` runs the standard table's entry for `op`. One case for each of the
sixteen opcodes: the decoder's arm against the table's slot. -/
theorem behaviour_of_opcode {w : Word} {op : BitVec 4} (h : (fieldsOf w).op = op) :
    (decodeWord w).behaviour = DispatchTable.standard[op.toNat] := by
  rw [decodeWord, h]
  clear h
  cases op with
  | ofFin i => fin_cases i <;> rfl

/-- The slots from 13 on hold Unused (R86). -/
theorem standard_unused : ∀ op : BitVec 4, 13 ≤ op.toNat → DispatchTable.standard[op.toNat] = .unused := by
  decide

/-- Every instruction of the Unused behaviour halts, with the cause UnusedOpcode, and changes nothing else (R249). -/
theorem exec_of_behaviour_unused {i : Instr} (h : i.behaviour = .unused) (s : State) :
    exec i s = .next (s.signalHalt .unusedOpcode) := by
  cases i
  case unused13 | unused14 | unused15 => rfl
  all_goals cases h

/-- Settles O4: the entry at an address follows from the entry of a word, and the halt of opcodes 13 to 15 from their entry. -/
theorem everyWordSelectsItsTableEntry : Obligations.EveryWordSelectsItsTableEntry := by
  refine ⟨fun hi lo rest => ⟨_, rfl⟩, fun _ => behaviour_of_opcode rfl, fun s a => ?_, fun w s hop => ?_⟩
  · have entry := behaviour_of_opcode (w := s.wordAt a) rfl
    simpa only [State.decodeAt, State.wordAt, fieldsOf_wordOfBytes] using entry
  · have unused : (decodeWord w).behaviour = .unused := (behaviour_of_opcode rfl).trans (standard_unused _ hop)
    exact ⟨_, exec_of_behaviour_unused unused s, s.signalHalt_seq _⟩

end Sys2Proof.Proofs
end

section
/-! The family 40_sequencer.md: how a behaviour ends (R115, R117, R118), and the value `Step()` returns (R116). -/

namespace Sys2Proof.Proofs

open Sys2Proof Sys2Proof.Machine

/-! ### How a behaviour ends -/

/-- Every instruction of the Halt behaviour halts, with the cause HaltInstr, and changes nothing else (R247). -/
theorem exec_of_behaviour_halt {i : Instr} (h : i.behaviour = .halt) (s : State) :
    exec i s = .next (s.signalHalt .haltInstr) := by
  cases i
  case halt => rfl
  all_goals cases h

/-- Every behaviour but Halt and Unused ends by signalling `continue` (R117). -/
theorem exec_of_behaviour_continues {i : Instr} (hHalt : i.behaviour ≠ .halt) (hUnused : i.behaviour ≠ .unused)
    (s : State) : ∃ u : State, exec i s = .next u.signalContinue := by
  cases i
  case halt => exact absurd rfl hHalt
  case unused13 | unused14 | unused15 => exact absurd rfl hUnused
  all_goals exact ⟨_, rfl⟩

/-- Every instruction completes, and it leaves `Halted` exactly if its behaviour is one of the two that signal halt (R117, R118). -/
theorem exec_halts_iff (i : Instr) (s : State) :
    ∃ t, exec i s = .next t ∧ (t.seq = .halted ↔ i.behaviour = .halt ∨ i.behaviour = .unused) := by
  by_cases hHalt : i.behaviour = .halt
  · exact ⟨_, exec_of_behaviour_halt hHalt s, by simp [hHalt]⟩
  by_cases hUnused : i.behaviour = .unused
  · exact ⟨_, exec_of_behaviour_unused hUnused s, by simp [hUnused]⟩
  obtain ⟨u, hu⟩ := exec_of_behaviour_continues hHalt hUnused s
  exact ⟨_, hu, by simp [hHalt, hUnused]⟩

/-! ### The step and the value it returns -/

/-- R119: in `Halted` the step is the identity. -/
theorem step_of_halted {s : State} (hs : s.seq = .halted) : step s = .next s :=
  if_pos (s.isHalted_iff.2 hs)

/-- R115: outside `Halted` the step runs the behaviour at the pc on the latched state. -/
theorem step_of_not_halted {s : State} (hs : s.seq ≠ .halted) : step s = exec (s.decodeAt s.pc) s.latch :=
  if_neg fun e => hs (s.isHalted_iff.1 e)

/-- Where the step answers a next state, the host sees it and whether it is `Halted`. -/
theorem hostStep_of_step {s t : State} (h : step s = .next t) : hostStep s = .next (t, t.isHalted) := by
  rw [hostStep, h]

/-- Every step completes, and it leaves `Halted` exactly if it started there or the behaviour at the pc signals halt. -/
theorem step_halts_iff (s : State) :
    ∃ t, step s = .next t ∧
      (t.seq = .halted ↔
        s.seq = .halted ∨ (s.decodeAt s.pc).behaviour = .halt ∨ (s.decodeAt s.pc).behaviour = .unused) := by
  by_cases hs : s.seq = .halted
  · exact ⟨s, step_of_halted hs, iff_of_true hs (.inl hs)⟩
  · obtain ⟨t, ht, halts⟩ := exec_halts_iff (s.decodeAt s.pc) s.latch
    exact ⟨t, (step_of_not_halted hs).trans ht, halts.trans (or_iff_right hs).symm⟩

/-- Settles O12: the value returned is whether the step left `Halted`. -/
theorem stepReturnsTrueExactlyOnHalt : Obligations.StepReturnsTrueExactlyOnHalt := by
  intro s
  obtain ⟨t, ht, halts⟩ := step_halts_iff s
  exact ⟨t, t.isHalted, hostStep_of_step ht, ht, t.isHalted_iff.trans halts⟩

end Sys2Proof.Proofs
end

section
/-! The family 41_load_store_move.md: Load1 (R140), Load2 (R143), Store (R146) and Move (R150). Each one's word is read through
its two bytes (R82); the meanings that write one register share one frame lemma. -/

namespace Sys2Proof.Proofs

open Sys2Proof Sys2Proof.Machine

/-! ### The fields of a word written as its operands -/

/-- The word `op`, `r`, `xy` as its two bytes: `op` and `r` fill the high byte. -/
theorem word_of_op_r_xy (op r : BitVec 4) (xy : Byte) : op ++ (r ++ xy) = wordOfBytes (op ++ r) xy :=
  (BitVec.append_assoc (x₁ := op) (x₂ := r) (x₃ := xy)).symm

/-- The word `op`, `r`, `s`, `t` as its two bytes. -/
theorem word_of_op_r_s_t (op r s t : BitVec 4) : op ++ (r ++ s ++ t) = wordOfBytes (op ++ r) (s ++ t) :=
  (congrArg (op ++ ·) (BitVec.append_assoc (x₁ := r) (x₂ := s) (x₃ := t))).trans (word_of_op_r_xy op r (s ++ t))

/-- The high nibble of a byte of two nibbles. -/
theorem highNibble_append (a b : BitVec 4) : BitVec.extractLsb' (n := 8) 4 4 (a ++ b) = a :=
  (extract_append_high a b (by decide)).trans (extract_all a)

/-- The low nibble of a byte of two nibbles. -/
theorem lowNibble_append (a b : BitVec 4) : BitVec.extractLsb' (n := 8) 0 4 (a ++ b) = b :=
  (extract_append_low a b (by decide)).trans (extract_all b)

/-- R81: the fields of a word of the form `op`, `r`, `xy`. -/
theorem fieldsOf_op_r_xy (op r : BitVec 4) (xy : Byte) :
    fieldsOf (op ++ (r ++ xy)) = ⟨op, r, xy.extractLsb' 4 4, xy.extractLsb' 0 4, xy⟩ := by
  rw [word_of_op_r_xy, fieldsOf_wordOfBytes, highNibble_append, lowNibble_append]

/-- R81: the fields of a word of the form `op`, `r`, `s`, `t`. -/
theorem fieldsOf_op_r_s_t (op r s t : BitVec 4) : fieldsOf (op ++ (r ++ s ++ t)) = ⟨op, r, s, t, s ++ t⟩ := by
  rw [word_of_op_r_s_t, fieldsOf_wordOfBytes, highNibble_append, lowNibble_append, highNibble_append, lowNibble_append]

/-! ### The four opcodes (R84, R86) -/

theorem decodeWord_load1 (r : RegIdx) (xy : Addr) : decodeWord (0x1#4 ++ (regField r ++ xy)) = .load1 r xy := by
  rw [decodeWord, fieldsOf_op_r_xy]
  rfl

theorem decodeWord_load2 (r : RegIdx) (xy : Byte) : decodeWord (0x2#4 ++ (regField r ++ xy)) = .load2 r xy := by
  rw [decodeWord, fieldsOf_op_r_xy]
  rfl

theorem decodeWord_store (r : RegIdx) (xy : Addr) : decodeWord (0x3#4 ++ (regField r ++ xy)) = .store r xy := by
  rw [decodeWord, fieldsOf_op_r_xy]
  rfl

theorem decodeWord_move (ign : BitVec 4) (src dst : RegIdx) :
    decodeWord (0x4#4 ++ (ign ++ regField src ++ regField dst)) = .move ign src dst := by
  rw [decodeWord, fieldsOf_op_r_s_t]
  rfl

/-! ### What the meanings do -/

/-- A register write that ends in `continue` writes that register and nothing else: the frame of every instruction with a
destination register. -/
theorem writesReg_of_writeReg (s : State) (r : RegIdx) (v : Byte) : WritesReg r v s (s.writeReg r v).signalContinue where
  result := by rw [State.signalContinue_readReg, State.readReg_writeReg, if_pos rfl]
  otherRegs q hq := by rw [State.signalContinue_readReg, State.readReg_writeReg, if_neg hq]
  cells _ := rfl
  pc := rfl
  scr := rfl
  latch := ⟨rfl, rfl, rfl⟩
  signal := ⟨rfl, rfl⟩

/-- The screen events of a Store of `v` to `xy`: one at the display-write address, none at any other (R146, R147). -/
def storeEvents (xy : Addr) (v : Byte) : List ScreenEvent :=
  if xy = 0x00 then [if v = 0x00 then .clear else .write v] else []

/-- R147: at the display-write address the one event is the model's. -/
theorem storeEvents_screen (v : Byte) : storeEvents screenAddr v = [screenEvent v] := by
  simp only [storeEvents, screenAddr, screenEvent, if_true, ite_not]

theorem storeEvents_elsewhere {xy : Addr} (h : xy ≠ screenAddr) (v : Byte) : storeEvents xy v = [] :=
  if_neg h

/-- R146: a Store writes the cell, extends the trace by its events and ends in `continue`. -/
theorem exec_store (r : RegIdx) (xy : Addr) (s : State) :
    exec (.store r xy) s =
      .next (State.signalContinue
        { s.writeMem xy (s.readReg r) with scr := s.scr ++ storeEvents xy (s.readReg r) }) := by
  by_cases hxy : xy = screenAddr
  · subst hxy
    rw [storeEvents_screen]
    rfl
  · rw [storeEvents_elsewhere hxy, List.append_nil, exec, execStore, if_neg hxy]
    rfl

/-! ### The statements -/

/-- Settles O28: the one written cell by the read-after-write rule; every other part is a field that `exec_store` leaves. -/
theorem storeWritesTheCellAndDrivesTheScreen : Obligations.StoreWritesTheCellAndDrivesTheScreen := by
  intro r xy s
  have cell (a : Addr) : (s.writeMem xy (s.readReg r)).readMem a = if a = xy then s.readReg r else s.readMem a :=
    s.readMem_writeMem xy a _
  refine ⟨decodeWord_store r xy, _, exec_store r xy s, ?written, ?others, rfl, fun _ => rfl, rfl, ⟨rfl, rfl, rfl⟩, ⟨rfl, rfl⟩⟩
  case written => exact (cell xy).trans (if_pos rfl)
  case others => exact fun a ha => (cell a).trans (if_neg ha)

/-- Settles O26: a register write of the byte of the cell. -/
theorem load1CopiesTheCell : Obligations.Load1CopiesTheCell := fun r xy s =>
  ⟨decodeWord_load1 r xy, _, rfl, writesReg_of_writeReg s r (s.readMem xy)⟩

/-- Settles O27: a register write of the immediate. -/
theorem load2LoadsTheImmediate : Obligations.Load2LoadsTheImmediate := fun r xy s =>
  ⟨decodeWord_load2 r xy, _, rfl, writesReg_of_writeReg s r xy⟩

/-- Settles O29: a register write of the source register; neither the decoder's fields nor the meaning use the ignored one. -/
theorem moveCopiesSourceToDestination : Obligations.MoveCopiesSourceToDestination := fun ign src dst s =>
  ⟨decodeWord_move ign src dst, _, rfl, writesReg_of_writeReg s dst (s.readReg src)⟩

end Sys2Proof.Proofs
end

section
/-! The family 42_integer_logic.md: Add1 (R170), Or (R173), And (R175), Xor (R177) and Rotate (R179, R180). Each writes one
register, so the frame is the shared one; what is left is the byte that each writes. -/

namespace Sys2Proof.Proofs

open Sys2Proof Sys2Proof.Machine

/-! ### The five opcodes (R84, R86) -/

theorem decodeWord_add1 (r src1 src2 : RegIdx) :
    decodeWord (0x5#4 ++ (regField r ++ regField src1 ++ regField src2)) = .add1 r src1 src2 := by
  rw [decodeWord, fieldsOf_op_r_s_t]
  rfl

theorem decodeWord_or (r src1 src2 : RegIdx) :
    decodeWord (0x7#4 ++ (regField r ++ regField src1 ++ regField src2)) = .or r src1 src2 := by
  rw [decodeWord, fieldsOf_op_r_s_t]
  rfl

theorem decodeWord_and (r src1 src2 : RegIdx) :
    decodeWord (0x8#4 ++ (regField r ++ regField src1 ++ regField src2)) = .and r src1 src2 := by
  rw [decodeWord, fieldsOf_op_r_s_t]
  rfl

theorem decodeWord_xor (r src1 src2 : RegIdx) :
    decodeWord (0x9#4 ++ (regField r ++ regField src1 ++ regField src2)) = .xor r src1 src2 := by
  rw [decodeWord, fieldsOf_op_r_s_t]
  rfl

theorem decodeWord_rotate (r : RegIdx) (ign cnt : BitVec 4) :
    decodeWord (0xA#4 ++ (regField r ++ ign ++ cnt)) = .rotate r ign cnt := by
  rw [decodeWord, fieldsOf_op_r_s_t]
  rfl

/-! ### The byte that Rotate writes -/

/-- For the counts that R180 allows, the model's rotation is the library's. -/
theorem rotr8_eq_rotateRight (v : Byte) {n : Nat} (hn : n < 8) : rotr8 v n = v.rotateRight n := by
  rw [BitVec.rotateRight_def, Nat.mod_eq_of_lt hn, rotr8]

/-- R180 bit by bit: bit `k` of the rotation is the source's bit `k + n`, counted around the byte. The bits below `8 - n` come
down from above; the others come around from the low end. -/
theorem getLsbD_rotr8 (v : Byte) {n k : Nat} (hn : n < 8) (hk : k < 8) :
    (rotr8 v n).getLsbD k = v.getLsbD ((k + n) % 8) := by
  rw [rotr8_eq_rotateRight v hn, BitVec.getLsbD_rotateRight, Nat.mod_eq_of_lt hn, Bool.cond_decide]
  by_cases below : k < 8 - n
  · have inside : (k + n) % 8 = n + k := by omega
    rw [if_pos below, inside]
  · have around : (k + n) % 8 = k - (8 - n) := by omega
    rw [if_neg below, around, decide_eq_true hk, Bool.true_and]

/-! ### The frame of the two-source meanings -/

/-- The shape that Add1, Or, And and Xor share writes `f` of the two sources, as they were, into `r` and nothing else. -/
theorem writesReg_binaryToReg (f : Byte → Byte → Byte) (r src1 src2 : RegIdx) (s : State) :
    WritesReg r (f (s.readReg src1) (s.readReg src2)) s (binaryToReg f r src1 src2 s) :=
  writesReg_of_writeReg s r _

/-! ### The statements -/

/-- Settles O32: a register write of the rotation, whose count is below 8 and whose bits `getLsbD_rotr8` gives. -/
theorem rotateTurnsRightByTheLiteral : Obligations.RotateTurnsRightByTheLiteral := by
  intro r ign cnt s
  have countBelow : rotateCount cnt < 8 := Nat.mod_lt _ (by decide)
  exact ⟨decodeWord_rotate r ign cnt, _, rotr8 (s.readReg r) (rotateCount cnt), rfl, writesReg_of_writeReg s r _,
    fun _ hk => getLsbD_rotr8 _ countBelow hk⟩

/-- Settles O30: byte addition, read as a number and as a signed byte. -/
theorem add1AddsModulo256 : Obligations.Add1AddsModulo256 := fun r src1 src2 s =>
  ⟨decodeWord_add1 r src1 src2, _, _, rfl, writesReg_binaryToReg _ r src1 src2 s, BitVec.toNat_add _ _, BitVec.toInt_add _ _⟩

/-- Settles O31: the three share one frame, and each byte operation acts bit by bit. -/
theorem orAndXorCombineBitwise : Obligations.OrAndXorCombineBitwise := fun r src1 src2 s =>
  ⟨⟨decodeWord_or r src1 src2, _, _, rfl, writesReg_binaryToReg _ r src1 src2 s, fun _ => BitVec.getLsbD_or⟩,
   ⟨decodeWord_and r src1 src2, _, _, rfl, writesReg_binaryToReg _ r src1 src2 s, fun _ => BitVec.getLsbD_and⟩,
   ⟨decodeWord_xor r src1 src2, _, _, rfl, writesReg_binaryToReg _ r src1 src2 s, fun _ => BitVec.getLsbD_xor⟩⟩

end Sys2Proof.Proofs
end

section
/-! The family 43_float.md: Add2 (R220) and the encoder's normal band (R207). Add2's frame is the shared one; the rest is about
the codec: a byte's value as a number of 1/256 (R202 to R204), and the byte of a sign, an exponent and a mantissa (R200). -/

namespace Sys2Proof.Proofs

open Sys2Proof Sys2Proof.Machine

/-! ### The opcode (R84, R86) -/

theorem decodeWord_add2 (r src1 src2 : RegIdx) :
    decodeWord (0x6#4 ++ (regField r ++ regField src1 ++ regField src2)) = .add2 r src1 src2 := by
  rw [decodeWord, fieldsOf_op_r_s_t]
  rfl

/-! ### The decoded values (R202 to R204) -/

/-- R203: the magnitude of a decoded value, in units of 1/256. -/
theorem natAbs_f8Units (b : Byte) : (f8Units b).natAbs = f8Mantissa b * 2 ^ f8Exponent b := by
  rw [f8Units]
  split
  · exact Int.natAbs_neg _
  · rfl

/-- R203: the greatest magnitude is `15 * 2^7`. -/
theorem natAbs_f8Units_le (b : Byte) : (f8Units b).natAbs ≤ 1920 := by
  have mantissa : f8Mantissa b ≤ 15 := Nat.le_of_lt_succ (b.extractLsb' 0 4).isLt
  have exponent : f8Exponent b ≤ 7 := Nat.le_of_lt_succ (b.extractLsb' 4 3).isLt
  calc (f8Units b).natAbs = f8Mantissa b * 2 ^ f8Exponent b := natAbs_f8Units b
    _ ≤ 15 * 2 ^ 7 := Nat.mul_le_mul mantissa (Nat.pow_le_pow_right (by decide) exponent)

/-- R204: the exact value of a byte is its integer number of 1/256. The excess 4 of the exponent and the mantissa's 16 make the
256. -/
theorem f8Decode_eq_f8Units_div (b : Byte) : f8Decode b = (f8Units b : ℚ) / 256 := by
  have scale : (2 : ℚ) ^ ((f8Exponent b : ℤ) - 4) = 2 ^ f8Exponent b / 16 := by
    rw [zpow_sub₀ two_ne_zero, zpow_natCast]
    norm_num
  rw [f8Decode, f8Units, scale]
  split
  · push_cast
    ring
  · push_cast
    ring

/-- R220: the integer sum is the exact sum of the two values, in units of 1/256. -/
theorem f8Sum_div_eq_decode_add (a b : Byte) : (f8Sum a b : ℚ) / 256 = f8Decode a + f8Decode b := by
  rw [f8Sum, Int.cast_add, add_div, f8Decode_eq_f8Units_div, f8Decode_eq_f8Units_div]

/-- R204: every sum that Add2 can ask for lies in the encoder's domain. -/
theorem natAbs_f8Sum_le (a b : Byte) : (f8Sum a b).natAbs ≤ 3840 :=
  (Int.natAbs_add_le _ _).trans (Nat.add_le_add (natAbs_f8Units_le a) (natAbs_f8Units_le b))

/-! ### The packed byte (R200) -/

/-- R200: sign, exponent and mantissa stand side by side where each fits its field. -/
theorem toNat_f8Pack (sign : Bool) {e m : Nat} (he : e < 8) (hm : m < 16) :
    (f8Pack sign e m).toNat = (if sign then 128 else 0) + 16 * e + m := by
  have exponent : (BitVec.ofNat 3 e).toNat = e := Nat.mod_eq_of_lt he
  have mantissa : (BitVec.ofNat 4 m).toNat = m := Nat.mod_eq_of_lt hm
  rw [f8Pack, BitVec.toNat_append, BitVec.toNat_append, exponent, mantissa, BitVec.toNat_ofBool,
    ← Nat.shiftLeft_add_eq_or_of_lt (i := 3) he, ← Nat.shiftLeft_add_eq_or_of_lt (i := 4) hm,
    Nat.shiftLeft_eq, Nat.shiftLeft_eq]
  cases sign with
  | false => rw [Bool.toNat_false, if_neg Bool.false_ne_true]; ring
  | true => rw [Bool.toNat_true, if_pos rfl]; ring

/-! ### The normal band (R207) -/

/-- R207's `0 ≤ E ≤ 7` with `E = floor(log2 M) - 3`: the eight binades from `2^3` up to `2^11` fill the band. -/
theorem normalBand_iff (m : Nat) :
    8 ≤ m ∧ m ≤ 2047 ↔ ∃ e : Nat, e ≤ 7 ∧ 2 ^ (e + 3) ≤ m ∧ m < 2 ^ (e + 4) := by
  constructor
  · rintro ⟨low, high⟩
    have nonzero : m ≠ 0 := by omega
    have logLow : 3 ≤ m.log2 := (Nat.le_log2 nonzero).2 low
    have logHigh : m.log2 < 11 := (Nat.log2_lt nonzero).2 (Nat.lt_succ_of_le high)
    obtain ⟨e, he⟩ := Nat.exists_eq_add_of_le' logLow
    obtain ⟨lower, upper⟩ := (Nat.log2_eq_iff nonzero).1 he
    exact ⟨e, by omega, lower, upper⟩
  · rintro ⟨e, he, lower, upper⟩
    have low : 2 ^ 3 ≤ m := (Nat.pow_le_pow_right (by decide) (by omega)).trans lower
    have high : m < 2 ^ 11 := upper.trans_le (Nat.pow_le_pow_right (by decide) (by omega))
    exact ⟨low, Nat.le_of_lt_succ high⟩

/-- The `E` of R207 shifts the top set bit to place 3, so the mantissa fills its field. -/
theorem normalBand_mantissa {e m : Nat} (lower : 2 ^ (e + 3) ≤ m) (upper : m < 2 ^ (e + 4)) :
    8 ≤ m / 2 ^ e ∧ m / 2 ^ e < 16 := by
  rw [Nat.pow_add'] at lower upper
  exact ⟨(Nat.le_div_iff_mul_le (Nat.two_pow_pos e)).2 lower, (Nat.div_lt_iff_lt_mul (Nat.two_pow_pos e)).2 upper⟩

/-- R207: in the normal band the encoder does not look at the policy. -/
theorem f8Encode_of_normalBand (p : F8RangePolicy) {units : Int} (low : 8 ≤ units.natAbs) (high : units.natAbs ≤ 2047) :
    f8Encode p units = f8EncodeNormal (decide (units < 0)) units.natAbs := by
  rw [f8Encode, if_neg (by omega), if_neg (by omega), if_pos high]

/-- R207: the exponent field is `E` and the mantissa `M >> E`, with the model's `log2` as the `E` of the bounds. -/
theorem f8EncodeNormal_eq_f8Pack (sign : Bool) {e m : Nat} (lower : 2 ^ (e + 3) ≤ m) (upper : m < 2 ^ (e + 4)) :
    f8EncodeNormal sign m = f8Pack sign e (m / 2 ^ e) := by
  have nonzero : m ≠ 0 := ((Nat.two_pow_pos _).trans_le lower).ne'
  have log : m.log2 = e + 3 := (Nat.log2_eq_iff nonzero).2 ⟨lower, upper⟩
  rw [f8EncodeNormal, log, Nat.add_sub_cancel, Nat.shiftRight_eq_div_pow]

/-! ### The statements -/

/-- Settles O33: a register write of the encoded sum, which is exact and in the encoder's domain. -/
theorem add2AddsMiniFloats : Obligations.Add2AddsMiniFloats := fun r src1 src2 s =>
  ⟨decodeWord_add2 r src1 src2, _, f8Sum (s.readReg src1) (s.readReg src2), rfl, f8Sum_div_eq_decode_add _ _,
    natAbs_f8Sum_le _ _, writesReg_of_writeReg s r _⟩

/-- Settles O39: the band by its binades; in each, the encoder packs `E` and `M >> E`, and both fit their fields. -/
theorem normalBandEncoding : Obligations.NormalBandEncoding := by
  refine fun p units => ⟨normalBand_iff units.natAbs, fun e he lower upper => ?_⟩
  obtain ⟨low, high⟩ := (normalBand_iff units.natAbs).2 ⟨e, he, lower, upper⟩
  obtain ⟨mantissaLow, mantissaHigh⟩ := normalBand_mantissa lower upper
  refine ⟨mantissaLow, Nat.le_of_lt_succ mantissaHigh, ?_⟩
  rw [f8Encode_of_normalBand p low high, f8EncodeNormal_eq_f8Pack _ lower upper,
    toNat_f8Pack _ (Nat.lt_succ_of_le he) mantissaHigh]
  simp only [decide_eq_true_eq]

end Sys2Proof.Proofs
end

section
/-! The family 44_control.md: Nothing (R240), Jump (R243, R245) and Halt (R247). None of them writes data, so they share that
frame; Jump is one write of the pc, and Halt's step is the step of any behaviour that signals halt. -/

namespace Sys2Proof.Proofs

open Sys2Proof Sys2Proof.Machine

/-! ### The three opcodes (R84, R86) -/

/-- The opcode field of a word of an opcode nibble and twelve more bits (R81). -/
theorem fieldsOf_op_rest_op (op : BitVec 4) (rest : BitVec 12) : (fieldsOf (op ++ rest)).op = op :=
  opcode_of_append op rest

theorem decodeWord_nothing (ign : BitVec 12) : decodeWord (0x0#4 ++ ign) = .nothing ign := by
  rw [decodeWord, fieldsOf_op_rest_op, operands_of_append]
  rfl

theorem decodeWord_jump (r : RegIdx) (xy : Addr) : decodeWord (0xB#4 ++ (regField r ++ xy)) = .jump r xy := by
  rw [decodeWord, fieldsOf_op_r_xy]
  rfl

theorem decodeWord_halt (ign : BitVec 12) : decodeWord (0xC#4 ++ ign) = .halt ign := by
  rw [decodeWord, fieldsOf_op_rest_op, operands_of_append]
  rfl

/-! ### What the meanings do -/

/-- A state with the registers, the memory and the trace of another keeps its data. -/
theorem keepsData_of_eq {s t : State} (hx : t.x = s.x) (hmem : t.mem = s.mem) (hscr : t.scr = s.scr) : KeepsData s t where
  regs := State.readReg_congr hx
  cells := State.readMem_congr hmem
  scr := hscr

/-- R245: the target made even is `xy` rounded down to an even address. Masking bit 0 away is a shift down and up again. -/
theorem toNat_jumpTarget (xy : Addr) : (jumpTarget xy).toNat = xy.toNat - xy.toNat % 2 := by
  have shifts : jumpTarget xy = xy >>> 1 <<< 1 := (BitVec.shiftLeft_ushiftRight (x := xy) (n := 1)).symm
  rw [shifts, BitVec.toNat_shiftLeft, BitVec.toNat_ushiftRight, Nat.shiftRight_eq_div_pow, Nat.shiftLeft_eq]
  omega

/-- The pc that Jump leaves: its target when it is taken, else the pc as it was (R243). -/
def pcAfterJump (r : RegIdx) (xy : Addr) (s : State) : Addr :=
  if s.readReg r = s.readReg 0 then jumpTarget xy else s.pc

theorem toNat_pcAfterJump_taken {r : RegIdx} {s : State} (xy : Addr) (taken : s.readReg r = s.readReg 0) :
    (pcAfterJump r xy s).toNat = xy.toNat - xy.toNat % 2 := by
  rw [pcAfterJump, if_pos taken, toNat_jumpTarget]

theorem pcAfterJump_untaken {r : RegIdx} {s : State} (xy : Addr) (untaken : s.readReg r ≠ s.readReg 0) :
    pcAfterJump r xy s = s.pc :=
  if_neg untaken

/-- R243: Jump writes the pc and ends in `continue`; untaken, it writes the pc that is there. -/
theorem exec_jump (r : RegIdx) (xy : Addr) (s : State) :
    exec (.jump r xy) s = .next (s.writePc (pcAfterJump r xy s)).signalContinue := by
  rw [exec, execJump, pcAfterJump]
  by_cases taken : s.readReg r = s.readReg 0
  · rw [if_pos taken, if_pos taken]
  · rw [if_neg taken, if_neg taken]
    rfl

/-- R116, R118: from outside `Halted`, a step whose behaviour signals halt returns true. It changes no data, and the pc keeps the
advance made before the behaviour (R113). -/
theorem hostStep_of_signalHalt {s : State} {c : HaltCause} (hs : s.seq ≠ .halted)
    (h : exec (s.decodeAt s.pc) s.latch = .next (s.latch.signalHalt c)) :
    ∃ t, hostStep s = .next (t, true) ∧ Halts c t ∧ KeepsData s t ∧ t.pc = s.pc + 2 :=
  ⟨_, hostStep_of_step ((step_of_not_halted hs).trans h), ⟨rfl, rfl⟩, keepsData_of_eq rfl rfl rfl, rfl⟩

/-! ### The statements -/

/-- Settles O34: the meaning is the signal `continue` and nothing more. -/
theorem nothingHasNoEffect : Obligations.NothingHasNoEffect := fun ign _ =>
  ⟨decodeWord_nothing ign, _, rfl, keepsData_of_eq rfl rfl rfl, rfl, ⟨rfl, rfl, rfl⟩, ⟨rfl, rfl⟩⟩

/-- Settles O35: one pc write in both cases, which the condition decides; with `r = 0` the condition is `x[0] = x[0]`. -/
theorem jumpIsTakenExactlyOnEquality : Obligations.JumpIsTakenExactlyOnEquality := by
  refine ⟨fun r xy s => ?eachRegister, fun xy s => ⟨_, exec_jump 0 xy s, toNat_pcAfterJump_taken xy rfl⟩⟩
  case eachRegister =>
    exact ⟨decodeWord_jump r xy, _, exec_jump r xy s, toNat_pcAfterJump_taken xy, pcAfterJump_untaken xy,
      keepsData_of_eq rfl rfl rfl, ⟨rfl, rfl, rfl⟩, ⟨rfl, rfl⟩⟩

/-- Settles O36: the behaviour is the signal alone; the step decodes it from the word at the pc and runs it on the latched state. -/
theorem haltStopsTheMachine : Obligations.HaltStopsTheMachine := by
  refine ⟨fun ign s => ?behaviour, fun ign s hs hword => ?step⟩
  case behaviour =>
    exact ⟨decodeWord_halt ign, _, exec_of_behaviour_halt rfl s, ⟨rfl, rfl⟩, keepsData_of_eq rfl rfl rfl, rfl, ⟨rfl, rfl, rfl⟩⟩
  case step =>
    have decoded : s.decodeAt s.pc = .halt ign := (congrArg decodeWord hword).trans (decodeWord_halt ign)
    have isHalt : (s.decodeAt s.pc).behaviour = .halt := congrArg Instr.behaviour decoded
    exact hostStep_of_signalHalt hs (exec_of_behaviour_halt isHalt s.latch)

end Sys2Proof.Proofs
end

section
/-! The family 70_reset_and_hazards.md: a load that fails on a bad token (R308) and one whose source cannot be opened (R310). A
load takes its tokens one after the other (R306), so loading a list of tokens is loading a prefix of it and then the rest. -/

namespace Sys2Proof.Proofs

open Sys2Proof Sys2Proof.Machine

/-! ### The tokens of a load that reports no error -/

/-- The first token of a load without error is hexadecimal, and its two bytes fit (R306). -/
theorem firstToken_of_loadTokens_ok {token : List Char} {rest : List (List Char)} {at_ : Nat} {s : State}
    (ok : (loadTokens (token :: rest) at_ s).error = none) : ∃ w, parseToken token = some w ∧ at_ + 1 ≤ 255 := by
  cases parsed : parseToken token with
  | none =>
    rw [loadTokens_bad rest at_ s parsed] at ok
    contradiction
  | some w =>
    refine ⟨w, rfl, Nat.le_of_not_lt fun full => ?_⟩
    rw [loadTokens_full rest s parsed full] at ok
    contradiction

/-- After tokens that load without error, a load goes on with the next one, two cells further for each token, in the state they
left (R306). -/
theorem loadTokens_append {front : List (List Char)} (back : List (List Char)) {at_ : Nat} {s : State}
    (ok : (loadTokens front at_ s).error = none) :
    loadTokens (front ++ back) at_ s = loadTokens back (at_ + 2 * front.length) (loadTokens front at_ s).state := by
  induction front generalizing at_ s with
  | nil => rfl
  | cons token front ih =>
    obtain ⟨w, parsed, fits⟩ := firstToken_of_loadTokens_ok ok
    have cells : at_ + 2 * (token :: front).length = at_ + 2 + 2 * front.length := by
      rw [List.length_cons]
      omega
    rw [loadTokens_good front s parsed fits] at ok ⊢
    rw [List.cons_append, loadTokens_good (front ++ back) s parsed fits, ih ok, cells]

/-! ### The statements -/

/-- Settles O55: the load goes on behind the tokens before the bad one, and the bad one ends it at any address. -/
theorem badTokenEndsTheLoadWithoutRollback : Obligations.BadTokenEndsTheLoadWithoutRollback := by
  intro good rest bad at_ s ok notHex
  rw [loadTokens_append (bad :: rest) ok, loadTokens_bad rest _ _ notHex]

/-- Settles O56: the loader's answer to a source that cannot be opened is the state it was given (R310). -/
theorem unopenableSourceChangesNothing : Obligations.UnopenableSourceChangesNothing := fun _ _ => rfl

end Sys2Proof.Proofs
end

section
/-! The round trips of decoding and encoding (30_encoding.md, R81 to R88), the bits an opcode ignores (D10) and the words of the
pseudo-instructions (R96). -/

namespace Sys2Proof.Proofs

open Sys2Proof Sys2Proof.Machine

/-! ### From the bytes to the instruction -/

/-- R82: a word's two bytes, high byte first, are read back as the word. -/
theorem wordOfBytes_bytesOfWord (w : Word) : wordOfBytes (w.extractLsb' 8 8) (w.extractLsb' 0 8) = w :=
  (append_extract 8 8 w).trans (extract_all w)

theorem decodeWord_unused13 (ign : BitVec 12) : decodeWord (0xD#4 ++ ign) = .unused13 ign := by
  rw [decodeWord, fieldsOf_op_rest_op, operands_of_append]
  rfl

theorem decodeWord_unused14 (ign : BitVec 12) : decodeWord (0xE#4 ++ ign) = .unused14 ign := by
  rw [decodeWord, fieldsOf_op_rest_op, operands_of_append]
  rfl

theorem decodeWord_unused15 (ign : BitVec 12) : decodeWord (0xF#4 ++ ign) = .unused15 ign := by
  rw [decodeWord, fieldsOf_op_rest_op, operands_of_append]
  rfl

/-- Every instruction is decoded from its own word: each encoder's arm has its opcode's decoding lemma. -/
theorem decodeWord_encode (i : Instr) : decodeWord (encode i) = i := by
  cases i with
  | nothing ign => exact decodeWord_nothing ign
  | load1 r xy => exact decodeWord_load1 r xy
  | load2 r xy => exact decodeWord_load2 r xy
  | store r xy => exact decodeWord_store r xy
  | move ign s t => exact decodeWord_move ign s t
  | add1 r s t => exact decodeWord_add1 r s t
  | add2 r s t => exact decodeWord_add2 r s t
  | or r s t => exact decodeWord_or r s t
  | and r s t => exact decodeWord_and r s t
  | xor r s t => exact decodeWord_xor r s t
  | rotate r ign t => exact decodeWord_rotate r ign t
  | jump r xy => exact decodeWord_jump r xy
  | halt ign => exact decodeWord_halt ign
  | unused13 ign => exact decodeWord_unused13 ign
  | unused14 ign => exact decodeWord_unused14 ign
  | unused15 ign => exact decodeWord_unused15 ign

/-- Settles O1: the two bytes give the word back, the word gives the instruction back, and `decode` leaves the rest as it is. -/
theorem decodeInvertsEncode : Obligations.DecodeInvertsEncode := by
  intro i rest
  have word : decodeWord (wordOfBytes ((encode i).extractLsb' 8 8) ((encode i).extractLsb' 0 8)) = i := by
    rw [wordOfBytes_bytesOfWord, decodeWord_encode]
  exact congrArg (fun j => Except.ok (j, rest)) word

/-! ### From the word to the instruction -/

/-- A word is its opcode and its twelve operand bits. -/
theorem word_eq_op_rest (w : Word) : (fieldsOf w).op ++ w.extractLsb' 0 12 = w :=
  (append_extract 4 12 w).trans (extract_all w)

/-- A word is its opcode, its field `r` and its byte `xy` (R81). -/
theorem word_eq_op_r_xy (w : Word) : (fieldsOf w).op ++ ((fieldsOf w).r ++ (fieldsOf w).xy) = w :=
  (congrArg ((fieldsOf w).op ++ ·) (append_extract 4 8 w)).trans (word_eq_op_rest w)

/-- A word is its four nibbles (R81). -/
theorem word_eq_op_r_s_t (w : Word) : (fieldsOf w).op ++ ((fieldsOf w).r ++ (fieldsOf w).s ++ (fieldsOf w).t) = w := by
  have xy : (fieldsOf w).s ++ (fieldsOf w).t = (fieldsOf w).xy := append_extract 4 4 w
  rw [word_of_op_r_s_t, xy, ← word_of_op_r_xy, word_eq_op_r_xy]

/-- Encoding the instruction of a word of opcode `op` puts the same fields side by side again: for each opcode, the split of the
word that its arm of the encoder uses. -/
theorem encode_decodeWord_of_opcode {w : Word} {op : BitVec 4} (h : (fieldsOf w).op = op) : encode (decodeWord w) = w := by
  have rest : op ++ w.extractLsb' 0 12 = w := h ▸ word_eq_op_rest w
  have xy : op ++ ((fieldsOf w).r ++ (fieldsOf w).xy) = w := h ▸ word_eq_op_r_xy w
  have rst : op ++ ((fieldsOf w).r ++ (fieldsOf w).s ++ (fieldsOf w).t) = w := h ▸ word_eq_op_r_s_t w
  rw [decodeWord, h]
  clear h
  cases op with
  | ofFin i =>
    fin_cases i
    exacts [rest, xy, xy, xy, rst, rst, rst, rst, rst, rst, rst, xy, rest, rest, rest, rest]

/-- Settles O2: at the word's own opcode. -/
theorem encodeInvertsDecodeWord : Obligations.EncodeInvertsDecodeWord := fun _ => encode_decodeWord_of_opcode rfl

/-! ### The ignored bits (R84, R88) -/

/-- The instruction with zeros in the bits that R84 marks ignored. -/
def clearIgnored : Instr → Instr
  | .nothing _ => .nothing 0
  | .move _ s t => .move 0 s t
  | .rotate r _ t => .rotate r 0 t
  | .halt _ => .halt 0
  | .unused13 _ => .unused13 0
  | .unused14 _ => .unused14 0
  | .unused15 _ => .unused15 0
  | i => i

/-- R88: no meaning reads the ignored bits. -/
theorem exec_clearIgnored (i : Instr) (s : State) : exec (clearIgnored i) s = exec i s := by
  cases i <;> rfl

/-- Masking a word of four nibbles masks each nibble. -/
theorem nibbles_and (op r s t op' r' s' t' : BitVec 4) :
    (op ++ (r ++ s ++ t) : Word) &&& (op' ++ (r' ++ s' ++ t')) =
      (op &&& op') ++ ((r &&& r') ++ (s &&& s') ++ (t &&& t')) := by
  rw [BitVec.and_append, BitVec.and_append, BitVec.and_append]

/-- Where the opcode uses every bit, the mask changes nothing. -/
theorem and_usedBits_all {op : BitVec 4} (rest : BitVec 12) (h : usedBits op = 0xFFFF) :
    (op ++ rest) &&& usedBits (fieldsOf (op ++ rest)).op = op ++ rest := by
  rw [fieldsOf_op_rest_op, h]
  exact BitVec.and_allOnes

/-- Where the opcode uses its own nibble only, the mask clears the twelve operand bits. -/
theorem and_usedBits_opcodeOnly {op : BitVec 4} (rest : BitVec 12) (h : usedBits op = 0xF000) :
    (op ++ rest) &&& usedBits (fieldsOf (op ++ rest)).op = op ++ (0 : BitVec 12) := by
  rw [fieldsOf_op_rest_op, h, Laws.append_and_mask]

/-- Move ignores the field `r`. -/
theorem and_usedBits_move (ign s t : BitVec 4) :
    (0x4#4 ++ (ign ++ s ++ t)) &&& usedBits (fieldsOf (0x4#4 ++ (ign ++ s ++ t))).op = 0x4#4 ++ (0#4 ++ s ++ t) := by
  have mask : usedBits 0x4#4 = 0xF#4 ++ (0x0#4 ++ 0xF#4 ++ 0xF#4) := by decide
  have keep (b : BitVec 4) : b &&& 0xF#4 = b := BitVec.and_allOnes
  rw [fieldsOf_op_rest_op, mask, nibbles_and, keep, keep, keep, BitVec.and_zero]

/-- Rotate ignores the field `s`. -/
theorem and_usedBits_rotate (r ign t : BitVec 4) :
    (0xA#4 ++ (r ++ ign ++ t)) &&& usedBits (fieldsOf (0xA#4 ++ (r ++ ign ++ t))).op = 0xA#4 ++ (r ++ 0#4 ++ t) := by
  have mask : usedBits 0xA#4 = 0xF#4 ++ (0xF#4 ++ 0x0#4 ++ 0xF#4) := by decide
  have keep (b : BitVec 4) : b &&& 0xF#4 = b := BitVec.and_allOnes
  rw [fieldsOf_op_rest_op, mask, nibbles_and, keep, keep, keep, BitVec.and_zero]

/-- An instruction's word, masked to the bits its opcode uses, is the word of the instruction with its ignored bits cleared. -/
theorem encode_and_usedBits (i : Instr) : encode i &&& usedBits (fieldsOf (encode i)).op = encode (clearIgnored i) := by
  cases i with
  | nothing ign | halt ign | unused13 ign | unused14 ign | unused15 ign => exact and_usedBits_opcodeOnly ign (by decide)
  | load1 r xy | load2 r xy | store r xy | jump r xy => exact and_usedBits_all (regField r ++ xy) (by decide)
  | add1 r s t | add2 r s t | or r s t | and r s t | xor r s t =>
    exact and_usedBits_all (regField r ++ regField s ++ regField t) (by decide)
  | move ign s t => exact and_usedBits_move ign (regField s) (regField t)
  | rotate r ign t => exact and_usedBits_rotate (regField r) ign t

/-- Settles O6: every word is an instruction's word, and masking it clears bits that no meaning reads. -/
theorem ignoredBitsChangeNothing : Obligations.IgnoredBitsChangeNothing := by
  intro w s
  have masked : w &&& usedBits (fieldsOf w).op = encode (clearIgnored (decodeWord w)) := by
    have := encode_and_usedBits (decodeWord w)
    rwa [encodeInvertsDecodeWord w] at this
  rw [masked, decodeWord_encode, exec_clearIgnored]

/-! ### Fixed words -/

/-- Settles O5: each word by evaluating the decoder. -/
theorem sampleWordsDecodeAsListed : Obligations.SampleWordsDecodeAsListed := by
  refine ⟨?_, ?_, ?_, ?_, ?_, ?_, ?_, ?_, ?_, ?_, ?_⟩ <;> decide

/-- Settles O7: each expansion is one instruction, whose encoding has the operand in its own field. -/
theorem pseudoInstructionsAreTheirWords : Obligations.PseudoInstructionsAreTheirWords :=
  ⟨fun xy => word_of_op_r_xy 0xB 0x0 xy, rfl, fun _ => rfl, fun _ => rfl⟩

end Sys2Proof.Proofs
end

section
/-! What a behaviour leaves in every field but the registers, once for all sixteen instructions; and from it what a step does to the
pc, the latch and the sequencer (R55, R56, R111 to R119, R125, R246, R249, R321). -/

namespace Sys2Proof.Proofs

open Sys2Proof Sys2Proof.Machine

/-! ### What running an instruction does -/

/-- The pc that an instruction leaves: only Jump writes it (R113, R243). -/
def pcAfter (i : Instr) (s : State) : Addr :=
  match i with
  | .jump r xy => pcAfterJump r xy s
  | _ => s.pc

/-- The memory that an instruction leaves: only Store writes it (R146). -/
def memAfter (i : Instr) (s : State) : Memory :=
  match i with
  | .store r xy => s.mem.write xy (s.readReg r)
  | _ => s.mem

/-- The screen events of an instruction: only a Store has any (R147). -/
def eventsOf (i : Instr) (s : State) : List ScreenEvent :=
  match i with
  | .store r xy => storeEvents xy (s.readReg r)
  | _ => []

/-- The sequencer state that a behaviour signals (R117, R118). -/
def seqAfter : Behaviour → Seq
  | .halt => .halted
  | .unused => .halted
  | _ => .running

/-- The halt cause after a behaviour that found `c` there (R117, R118). -/
def hcauseAfter (b : Behaviour) (c : HaltCause) : HaltCause :=
  match b with
  | .halt => .haltInstr
  | .unused => .unusedOpcode
  | _ => c

/-- What running `i` from `s` to `t` does to every field but the registers. -/
structure Runs (i : Instr) (s t : State) : Prop where
  pc : t.pc = pcAfter i s
  mem : t.mem = memAfter i s
  scr : t.scr = s.scr ++ eventsOf i s
  seq : t.seq = seqAfter i.behaviour
  hcause : t.hcause = hcauseAfter i.behaviour s.hcause
  latch : KeepsLatch s t

/-- Every instruction's meaning, read field by field. Store and Jump are the two that write memory, the screen or the pc. -/
theorem runs_of_exec {i : Instr} {s t : State} (h : exec i s = .next t) : Runs i s t := by
  cases i with
  | store r xy =>
    rw [exec_store] at h
    cases h
    exact ⟨rfl, rfl, rfl, rfl, rfl, ⟨rfl, rfl, rfl⟩⟩
  | jump r xy =>
    rw [exec_jump] at h
    cases h
    exact ⟨rfl, rfl, (List.append_nil _).symm, rfl, rfl, ⟨rfl, rfl, rfl⟩⟩
  | _ =>
    cases h
    exact ⟨rfl, rfl, (List.append_nil _).symm, rfl, rfl, ⟨rfl, rfl, rfl⟩⟩

/-- Outside `Halted` a step is a run of the instruction at the pc from the latched state. -/
theorem runs_of_step {s t : State} (hs : s.seq ≠ .halted) (h : step s = .next t) : Runs (s.decodeAt s.pc) s.latch t :=
  runs_of_exec ((step_of_not_halted hs).symm.trans h)

/-- In `Halted` a step answers the state it started in. -/
theorem eq_of_step_of_halted {s t : State} (hs : s.seq = .halted) (h : step s = .next t) : s = t :=
  Host.Outcome.next.inj ((step_of_halted hs).symm.trans h)

/-- Settles O10: completion is half of what the two lemmas on halting say. -/
theorem everyInstructionAndStepCompletes : Obligations.EveryInstructionAndStepCompletes :=
  ⟨fun i s => (exec_halts_iff i s).imp fun _ h => h.1, fun s => (step_halts_iff s).imp fun _ h => h.1⟩

/-- Settles O8: the decoded instruction is the one that the step runs on the latched state. -/
theorem stepRunsTheDecodedInstruction : Obligations.StepRunsTheDecodedInstruction := by
  intro s i hs decoded
  have atPc : s.decodeAt s.pc = i := congrArg Prod.fst (Except.ok.inj decoded)
  rw [step_of_not_halted hs, atPc]
  rfl

/-- Settles O9: the step is the identity, and its value is that the state is `Halted`. -/
theorem stepInHaltedChangesNothing : Obligations.StepInHaltedChangesNothing := by
  intro s hs
  have value : s.isHalted = true := s.isHalted_iff.2 hs
  exact ⟨step_of_halted hs, value ▸ hostStep_of_step (step_of_halted hs)⟩

/-! ### The sequencer state -/

theorem seqAfter_of_continues {b : Behaviour} (hHalt : b ≠ .halt) (hUnused : b ≠ .unused) : seqAfter b = .running := by
  cases b with
  | halt => exact absurd rfl hHalt
  | unused => exact absurd rfl hUnused
  | _ => rfl

theorem hcauseAfter_of_continues {b : Behaviour} (hHalt : b ≠ .halt) (hUnused : b ≠ .unused) (c : HaltCause) :
    hcauseAfter b c = c := by
  cases b with
  | halt => exact absurd rfl hHalt
  | unused => exact absurd rfl hUnused
  | _ => rfl

/-- Settles O11: the two halting behaviours signal from the latched state and do no more; any other leaves Running and the cause. -/
theorem stepSetsTheSequencerState : Obligations.StepSetsTheSequencerState := by
  intro s t hs h
  have runs := runs_of_step hs h
  rw [step_of_not_halted hs] at h
  split
  next isHalt => exact (Host.Outcome.next.inj ((exec_of_behaviour_halt isHalt s.latch).symm.trans h)).symm
  next isUnused => exact (Host.Outcome.next.inj ((exec_of_behaviour_unused isUnused s.latch).symm.trans h)).symm
  next hHalt hUnused =>
    exact ⟨runs.seq.trans (seqAfter_of_continues hHalt hUnused),
      runs.hcause.trans (hcauseAfter_of_continues hHalt hUnused s.hcause)⟩

/-- Settles O37: the three slots have one behaviour, which is the signal; as a step it is the step of any behaviour that signals
halt, and the words of opcodes 13 to 15 select it. -/
theorem unusedOpcodesStopTheMachine : Obligations.UnusedOpcodesStopTheMachine := by
  refine ⟨fun ign s i slot => ?behaviour, fun ign => ?words, fun op ign s hop hs hword => ?step⟩
  case behaviour =>
    have isUnused : i.behaviour = .unused := by rcases slot with rfl | rfl | rfl <;> rfl
    exact ⟨_, exec_of_behaviour_unused isUnused s, ⟨rfl, rfl⟩, keepsData_of_eq rfl rfl rfl, rfl, ⟨rfl, rfl, rfl⟩⟩
  case words => exact ⟨decodeWord_unused13 ign, decodeWord_unused14 ign, decodeWord_unused15 ign⟩
  case step =>
    have opcode : (fieldsOf (s.wordAt s.pc)).op = op := by rw [hword, fieldsOf_op_rest_op]
    have isUnused : (s.decodeAt s.pc).behaviour = .unused := (behaviour_of_opcode opcode).trans (standard_unused op hop)
    exact hostStep_of_signalHalt hs (exec_of_behaviour_unused isUnused s.latch)

/-! ### The pc -/

/-- The instruction is a Jump that is taken (R243). -/
def TakesJump (i : Instr) (s : State) : Prop := ∃ r xy, i = .jump r xy ∧ s.readReg r = s.readReg 0

/-- R245: a taken Jump leaves an even pc. -/
theorem pcAfter_taken_even {i : Instr} {s : State} (taken : TakesJump i s) : (pcAfter i s).toNat % 2 = 0 := by
  obtain ⟨r, xy, rfl, equal⟩ := taken
  have target : (pcAfter (.jump r xy) s).toNat = xy.toNat - xy.toNat % 2 := toNat_pcAfterJump_taken xy equal
  omega

/-- Every other instruction leaves the pc as it is. -/
theorem pcAfter_untaken {i : Instr} {s : State} (untaken : ¬ TakesJump i s) : pcAfter i s = s.pc := by
  cases i with
  | jump r xy => exact pcAfterJump_untaken xy fun equal => untaken ⟨r, xy, rfl, equal⟩
  | _ => rfl

/-- The advance past an instruction keeps the pc's parity, also where it wraps. -/
theorem parity_add_two (a : Addr) : (a + 2).toNat % 2 = a.toNat % 2 := by
  have sum : (a + 2).toNat = (a.toNat + 2) % 256 := BitVec.toNat_add a 2
  omega

/-- Settles O13: the pc that the instruction leaves, from the advanced one. -/
theorem pcAfterAStep : Obligations.PcAfterAStep := by
  intro s t hs h
  rw [(runs_of_step hs h).pc]
  cases s.decodeAt s.pc <;> rfl

/-- Settles O14: the latch holds the word that wraps, and the advanced pc is that of every behaviour but Jump. -/
theorem fetchAndPcWrapAtTheTop : Obligations.FetchAndPcWrapAtTheTop := by
  refine ⟨fun s t hs hpc h => ?fetch, fun s t hs hpc noJump h => ?advance⟩
  case fetch =>
    have latch := (runs_of_step hs h).latch
    have word : s.wordAt s.pc = wordOfBytes (s.readMem 0xFF) (s.readMem 0x00) := by rw [hpc]; rfl
    exact ⟨latch.ia.trans hpc, latch.ir.trans word⟩
  case advance =>
    have untaken : ¬ TakesJump (s.decodeAt s.pc) s.latch := by
      rintro ⟨r, xy, isJump, _⟩
      exact noJump (congrArg Instr.behaviour isJump)
    rw [(runs_of_step hs h).pc, pcAfter_untaken untaken, State.latch_pc, hpc]
    rfl

/-- Settles O15: the fetch does not align, the advance keeps the pc odd, and a taken Jump alone makes it even. -/
theorem oddPcStaysOddUntilATakenJump : Obligations.OddPcStaysOddUntilATakenJump := by
  intro s hs odd
  obtain ⟨t, h⟩ := everyInstructionAndStepCompletes.2 s
  have runs := runs_of_step hs h
  refine ⟨t, h, runs.latch.ir, fun even => ?onlyTaken, fun taken => ?taken⟩
  case onlyTaken =>
    by_contra untaken
    rw [PcEven, runs.pc, pcAfter_untaken (s := s.latch) untaken, State.latch_pc, parity_add_two] at even
    exact odd even
  case taken =>
    rw [PcEven, runs.pc]
    exact pcAfter_taken_even (s := s.latch) taken

/-! ### Self-modification and self-jumps -/

/-- Settles O16: the Store's own step runs the latched word; every read of the state it leaves sees the written cell. -/
theorem storeIsSeenByLaterFetchesNotByItself : Obligations.StoreIsSeenByLaterFetchesNotByItself := by
  intro s r xy hs isStore
  have ran : step s = exec (.store r xy) s.latch := by rw [step_of_not_halted hs, isStore]
  have cell (a : Addr) : (s.writeMem xy (s.readReg r)).readMem a = if a = xy then s.readReg r else s.readMem a :=
    s.readMem_writeMem xy a _
  exact ⟨_, ran.trans (exec_store r xy s.latch), rfl, rfl, rfl, fun a => congrArg₂ wordOfBytes (cell a) (cell (a + 1)),
    step_of_not_halted (by simp), rfl⟩

/-- R246: from Running, the step of a taken Jump to its own address changes the latch alone. -/
theorem step_of_selfJump {s : State} {r : RegIdx} {xy : Addr} (running : s.seq = .running)
    (isJump : s.decodeAt s.pc = .jump r xy) (taken : s.readReg r = s.readReg 0) (own : xy &&& 0xFE = s.pc) :
    step s = .next { s with ir := s.wordAt s.pc, ia := s.pc } := by
  have target : pcAfterJump r xy s.latch = s.pc := (if_pos taken).trans own
  rw [step_of_not_halted (by rw [running]; decide), isJump, exec_jump, target, State.signalContinue, ← running]
  rfl

/-- Settles O17: the state after the step meets the same conditions, and its latch already holds what the next step latches. -/
theorem jumpToItselfLoopsForever : Obligations.JumpToItselfLoopsForever := by
  intro s r xy running isJump taken own
  exact ⟨_, step_of_selfJump running isJump taken own, rfl, step_of_selfJump (r := r) (xy := xy) running isJump taken own⟩

end Sys2Proof.Proofs
end

section
/-! What every step and every host operation keeps: an even pc (R54), the canonical memory (log 7), the agreement of the halt cause
(R26), the configuration (R34), the screen trace (R28, D16), and what the loader leaves as it was (D14). -/

namespace Sys2Proof.Proofs

open Sys2Proof Sys2Proof.Machine

/-! ### The loader writes cells and nothing else -/

/-- What every write of a cell keeps, a load of tokens keeps. -/
theorem loadTokens_keeps {P : State → Prop} (write : ∀ s a v, P s → P (s.writeMem a v)) (toks : List (List Char)) (at_ : Nat)
    (s : State) (h : P s) : P (loadTokens toks at_ s).state := by
  induction toks generalizing at_ s with
  | nil => exact h
  | cons token rest ih =>
    cases parsed : parseToken token with
    | none => rwa [loadTokens_bad rest at_ s parsed]
    | some w =>
      by_cases fits : at_ + 1 ≤ 255
      · rw [loadTokens_good rest s parsed fits]
        exact ih _ _ (write _ _ _ (write _ _ _ h))
      · rwa [loadTokens_full rest s parsed (Nat.lt_of_not_le fits)]

/-- What every write of a cell keeps, a load from any source keeps. -/
theorem hostLoadProgram_keeps {P : State → Prop} (write : ∀ s a v, P s → P (s.writeMem a v)) (source : ProgramSource)
    (start : Addr) (s : State) (h : P s) : P (hostLoadProgram source start s).state := by
  cases source with
  | unopenable => exact h
  | text chars => exact loadTokens_keeps write (tokens chars) start.toNat s h

/-- Settles O52: a write of a cell keeps all of it. -/
theorem loadProgramWritesMemoryOnly : Obligations.LoadProgramWritesMemoryOnly := by
  intro source start s
  refine hostLoadProgram_keeps
    (P := fun t => t.x = s.x ∧ t.pc = s.pc ∧ t.seq = s.seq ∧ t.hcause = s.hcause ∧ t.scr = s.scr ∧ KeepsLatch s t)
    ?write source start s ⟨rfl, rfl, rfl, rfl, rfl, ⟨rfl, rfl, rfl⟩⟩
  case write =>
    rintro t a v ⟨x, pc, seq, hcause, scr, latch⟩
    exact ⟨x, pc, seq, hcause, scr, ⟨latch.ir, latch.ia, latch.f8Policy⟩⟩

/-! ### The pc -/

/-- Settles O18: a taken Jump leaves an even pc, any other instruction the advanced one, and a halted machine the same. -/
theorem stepKeepsThePcEven : Obligations.StepKeepsThePcEven := by
  intro s t even h
  by_cases hs : s.seq = .halted
  · obtain rfl := eq_of_step_of_halted hs h
    exact even
  · rw [PcEven, (runs_of_step hs h).pc]
    by_cases taken : TakesJump (s.decodeAt s.pc) s.latch
    · exact pcAfter_taken_even taken
    · rw [pcAfter_untaken taken, State.latch_pc, parity_add_two]
      exact even

/-! ### The canonical memory -/

/-- A Store writes one cell; no other instruction writes any. -/
theorem wf_memAfter (i : Instr) {s : State} (canonical : MemCanonical s) : (memAfter i s).wf = true := by
  cases i with
  | store r xy => exact Memory.wf_write xy _ canonical
  | _ => exact canonical

theorem step_keeps_memCanonical {s t : State} (canonical : MemCanonical s) (h : step s = .next t) : MemCanonical t := by
  by_cases hs : s.seq = .halted
  · obtain rfl := eq_of_step_of_halted hs h
    exact canonical
  · rw [MemCanonical, (runs_of_step hs h).mem]
    exact wf_memAfter _ (s := s.latch) canonical

theorem writeMem_keeps_memCanonical (s : State) (a : Addr) (v : Byte) (canonical : MemCanonical s) :
    MemCanonical (s.writeMem a v) :=
  Memory.wf_write a v canonical

/-- Settles O19: memory changes by writes of single cells, and by a reset, whose memory is empty. -/
theorem memoryStaysCanonical : Obligations.MemoryStaysCanonical := by
  refine ⟨fun _ _ => step_keeps_memCanonical, fun c s t canonical h => ?_⟩
  cases c with
  | step => exact step_keeps_memCanonical canonical h
  | reset => cases h; exact State.reset_mem_wf
  | memSet a v => cases h; exact writeMem_keeps_memCanonical s a v canonical
  | regSet r v => cases h; exact canonical
  | pcSet v => cases h; exact canonical
  | loadProgram source start => cases h; exact hostLoadProgram_keeps writeMem_keeps_memCanonical source start s canonical

/-! ### The halt cause -/

/-- Where no cause was recorded before, a behaviour records one exactly if it halts (R117, R118). -/
theorem seqAfter_halted_iff (b : Behaviour) : seqAfter b = .halted ↔ hcauseAfter b .none ≠ .none := by
  cases b <;> simp [seqAfter, hcauseAfter]

/-- Outside `Halted` an agreeing cause is none. -/
theorem hcause_none_of_agrees {s : State} (agrees : HaltCauseAgrees s) (hs : s.seq ≠ .halted) : s.hcause = .none :=
  of_not_not fun cause => hs (agrees.2 cause)

theorem step_keeps_haltCauseAgrees {s t : State} (agrees : HaltCauseAgrees s) (h : step s = .next t) : HaltCauseAgrees t := by
  by_cases hs : s.seq = .halted
  · obtain rfl := eq_of_step_of_halted hs h
    exact agrees
  · have runs := runs_of_step hs h
    rw [HaltCauseAgrees, runs.seq, runs.hcause, State.latch_hcause, hcause_none_of_agrees agrees hs]
    exact seqAfter_halted_iff _

/-- A state with the sequencer state and the cause of an agreeing one agrees. -/
theorem haltCauseAgrees_congr {s t : State} (agrees : HaltCauseAgrees s) (hseq : t.seq = s.seq) (hcause : t.hcause = s.hcause) :
    HaltCauseAgrees t := by
  rw [HaltCauseAgrees, hseq, hcause]
  exact agrees

/-- Idle with no cause agrees. -/
theorem haltCauseAgrees_of_idle {t : State} (hseq : t.seq = .idle) (hcause : t.hcause = .none) : HaltCauseAgrees t := by
  rw [HaltCauseAgrees, hseq, hcause]
  decide

/-- Settles O20: a step signals the two together, Reset and PcSet clear both, and the other operations write neither. -/
theorem haltCauseStaysInAgreement : Obligations.HaltCauseStaysInAgreement := by
  refine ⟨fun _ _ => step_keeps_haltCauseAgrees, fun c s t agrees h => ?_⟩
  cases c with
  | step => exact step_keeps_haltCauseAgrees agrees h
  | reset => cases h; exact haltCauseAgrees_of_idle rfl rfl
  | pcSet v => cases h; exact haltCauseAgrees_of_idle rfl rfl
  | memSet a v => cases h; exact haltCauseAgrees_congr agrees rfl rfl
  | regSet r v => cases h; exact haltCauseAgrees_congr agrees rfl rfl
  | loadProgram source start =>
    cases h
    obtain ⟨-, -, hseq, hcause, -⟩ := loadProgramWritesMemoryOnly source start s
    exact haltCauseAgrees_congr agrees hseq hcause

/-- Settles O21: the pc is 0x00, the memory empty, and the machine Idle with no cause. -/
theorem resetSatisfiesTheInvariants : Obligations.ResetSatisfiesTheInvariants :=
  ⟨rfl, State.reset_mem_wf, haltCauseAgrees_of_idle rfl rfl⟩

/-! ### Canonical memories as data -/

/-- Below the first address of a canonical list nothing is listed. -/
theorem lookup_below {lo k : Nat} {m : Memory} (wf : Memory.wfFrom lo m = true) (below : k < lo) :
    m.lookup k = Memory.unlisted := by
  induction m generalizing lo with
  | nil => rfl
  | cons e rest ih =>
    obtain ⟨k', v⟩ := e
    obtain ⟨first, -, -, wfRest⟩ := (Memory.wfFrom_cons lo k' v rest).1 wf
    rw [Memory.lookup, if_neg (by omega), ih wfRest (by omega)]

theorem lookup_head (k : Nat) (v : Byte) (rest : Memory) : Memory.lookup ((k, v) :: rest) k = v :=
  if_pos rfl

/-- Of two canonical lists that read alike, the second has no head above the first's: the first would list a byte that is not 0x00
where the second lists none. -/
theorem head_le_of_lookup_eq {lo lo' k k' : Nat} {v v' : Byte} {rest rest' : Memory}
    (wf : Memory.wfFrom lo ((k, v) :: rest) = true) (wf' : Memory.wfFrom lo' ((k', v') :: rest') = true)
    (alike : ∀ j < 256, Memory.lookup ((k, v) :: rest) j = Memory.lookup ((k', v') :: rest') j) : k' ≤ k := by
  obtain ⟨-, inMemory, listed, -⟩ := (Memory.wfFrom_cons lo k v rest).1 wf
  obtain ⟨-, tail'⟩ := (Memory.wfFrom_cons lo' k' v' rest').1 wf'
  have wfFromHead : Memory.wfFrom k' ((k', v') :: rest') = true := (Memory.wfFrom_cons k' k' v' rest').2 ⟨le_rfl, tail'⟩
  by_contra above
  exact listed ((lookup_head k v rest).symm.trans ((alike k inMemory).trans (lookup_below wfFromHead (by omega))))

/-- A canonical list that reads 0x00 everywhere is empty. -/
theorem eq_nil_of_lookup_unlisted {lo : Nat} {m : Memory} (wf : Memory.wfFrom lo m = true)
    (zero : ∀ j < 256, m.lookup j = Memory.unlisted) : m = [] := by
  cases m with
  | nil => rfl
  | cons e rest =>
    obtain ⟨k, v⟩ := e
    obtain ⟨-, inMemory, listed, -⟩ := (Memory.wfFrom_cons lo k v rest).1 wf
    exact absurd ((lookup_head k v rest).symm.trans (zero k inMemory)) listed

/-- Canonical lists that read alike are equal: their heads have the same address and byte, and their tails read alike. -/
theorem eq_of_lookup_eq {lo lo' : Nat} {m m' : Memory} (wf : Memory.wfFrom lo m = true) (wf' : Memory.wfFrom lo' m' = true)
    (alike : ∀ j < 256, m.lookup j = m'.lookup j) : m = m' := by
  induction m generalizing lo lo' m' with
  | nil => exact (eq_nil_of_lookup_unlisted wf' fun j hj => (alike j hj).symm).symm
  | cons e rest ih =>
    obtain ⟨k, v⟩ := e
    cases m' with
    | nil => exact eq_nil_of_lookup_unlisted wf alike
    | cons e' rest' =>
      obtain ⟨k', v'⟩ := e'
      obtain rfl : k' = k :=
        le_antisymm (head_le_of_lookup_eq wf wf' alike) (head_le_of_lookup_eq wf' wf fun j hj => (alike j hj).symm)
      obtain ⟨-, inMemory, -, wfRest⟩ := (Memory.wfFrom_cons lo k' v rest).1 wf
      obtain ⟨-, -, -, wfRest'⟩ := (Memory.wfFrom_cons lo' k' v' rest').1 wf'
      have sameByte : v = v' := by simpa only [lookup_head] using alike k' inMemory
      have sameRest : rest = rest' := by
        refine ih wfRest wfRest' fun j hj => ?_
        by_cases atHead : k' = j
        · rw [lookup_below wfRest (by omega), lookup_below wfRest' (by omega)]
        · simpa only [Memory.lookup, if_neg atHead] using alike j hj
      rw [sameByte, sameRest]

/-- Settles O22: every address below 256 is a byte's. -/
theorem canonicalMemoriesThatReadAlikeAreEqual : Obligations.CanonicalMemoriesThatReadAlikeAreEqual := by
  intro m m' wf wf' alike
  refine eq_of_lookup_eq wf wf' fun j hj => ?_
  have address : (BitVec.ofNat 8 j).toNat = j := Nat.mod_eq_of_lt hj
  simpa only [Memory.read, address] using alike (BitVec.ofNat 8 j)

/-! ### Leaving Halted, the configuration and the trace -/

/-- Settles O23: of the other operations, a step in `Halted` is the identity, and the rest write neither field. -/
theorem onlyResetAndPcSetLeaveHalted : Obligations.OnlyResetAndPcSetLeaveHalted := by
  refine ⟨fun c s t hs h left => ?_, fun _ => ⟨rfl, rfl⟩, fun _ _ => ⟨rfl, rfl⟩, fun _ _ _ _ => ⟨rfl, rfl⟩⟩
  cases c with
  | reset => exact .inl rfl
  | pcSet v => exact .inr ⟨v, rfl⟩
  | step =>
    obtain rfl := eq_of_step_of_halted hs h
    exact absurd hs left
  | memSet a v => cases h; exact absurd hs left
  | regSet r v => cases h; exact absurd hs left
  | loadProgram source start =>
    cases h
    obtain ⟨-, -, hseq, -⟩ := loadProgramWritesMemoryOnly source start s
    exact absurd (hseq.trans hs) left

/-- Settles O24: no behaviour writes the configuration, and every host operation carries it over. -/
theorem configurationNeverChanges : Obligations.ConfigurationNeverChanges := by
  intro c s t h
  cases c with
  | step =>
    by_cases hs : s.seq = .halted
    · obtain rfl := eq_of_step_of_halted hs h
      rfl
    · exact (runs_of_step hs h).latch.f8Policy
  | loadProgram source start =>
    cases h
    obtain ⟨-, -, -, -, -, latch⟩ := loadProgramWritesMemoryOnly source start s
    exact latch.f8Policy
  | reset => cases h; rfl
  | memSet a v => cases h; rfl
  | regSet r v => cases h; rfl
  | pcSet v => cases h; rfl

/-- The screen events of a host operation: those of the instruction that a step outside `Halted` runs. -/
def hostEvents (c : HostCall) (s : State) : List ScreenEvent :=
  if c = .step ∧ s.seq ≠ .halted then eventsOf (s.decodeAt s.pc) s else []

theorem hostEvents_of_not_step {c : HostCall} (hc : c ≠ .step) (s : State) : hostEvents c s = [] :=
  if_neg fun h => hc h.1

/-- The trace after a host operation is the one before it and the operation's events. -/
theorem hostCall_scr {c : HostCall} {s t : State} (h : hostCall c s = .next t) : t.scr = s.scr ++ hostEvents c s := by
  by_cases hc : c = .step
  · subst hc
    by_cases hs : s.seq = .halted
    · obtain rfl := eq_of_step_of_halted hs h
      rw [hostEvents, if_neg fun both => both.2 hs, List.append_nil]
    · rw [hostEvents, if_pos ⟨rfl, hs⟩, (runs_of_step hs h).scr, State.latch_scr]
      rfl
  · rw [hostEvents_of_not_step hc, List.append_nil]
    cases c with
    | step => exact absurd rfl hc
    | loadProgram source start =>
      cases h
      obtain ⟨-, -, -, -, scr, -⟩ := loadProgramWritesMemoryOnly source start s
      exact scr
    | reset => cases h; rfl
    | memSet a v => cases h; rfl
    | regSet r v => cases h; rfl
    | pcSet v => cases h; rfl

/-- Settles O25: the events of the operation, written out. -/
theorem onlyAStoreToZeroReachesTheScreen : Obligations.OnlyAStoreToZeroReachesTheScreen := by
  intro c s t h
  rw [hostCall_scr h, hostEvents]
  cases s.decodeAt s.pc <;> rfl

end Sys2Proof.Proofs
end

section
/-! The mini-float codec (43_float.md): the decoded values (R202, R203), the bands of the encoder and its policies (R206 to R208,
D7, D8), the loop of R209, the round trips of R210 and the commutativity of Add2 (R221). -/

namespace Sys2Proof.Proofs

open Sys2Proof Sys2Proof.Machine

/-! ### The decoded values -/

/-- R203: a value is zero exactly where its mantissa is. -/
theorem f8Units_eq_zero_iff (b : Byte) : f8Units b = 0 ↔ b.toNat % 16 = 0 := by
  have scale : 2 ^ f8Exponent b ≠ 0 := (Nat.two_pow_pos _).ne'
  rw [← Int.natAbs_eq_zero, natAbs_f8Units, mul_eq_zero, or_iff_left scale, f8Mantissa, lowNibble_toNat]

/-- Settles O38: the exact value, its bound, and where it is zero. -/
theorem decodedValuesAreMultiplesOf256ths : Obligations.DecodedValuesAreMultiplesOf256ths := fun b =>
  ⟨f8Decode_eq_f8Units_div b, natAbs_f8Units_le b, f8Units_eq_zero_iff b⟩

/-! ### The encoder's bands -/

/-- R206: zero encodes to 0x00. -/
theorem f8Encode_zero (p : F8RangePolicy) : f8Encode p 0 = 0x00 := rfl

theorem f8Encode_of_lowBand (p : F8RangePolicy) {units : Int} (low : 1 ≤ units.natAbs) (high : units.natAbs ≤ 7) :
    f8Encode p units = f8EncodeLow p (decide (units < 0)) units.natAbs := by
  rw [f8Encode, if_neg (by omega), if_pos high]

theorem f8Encode_of_highBand (p : F8RangePolicy) {units : Int} (low : 2048 ≤ units.natAbs) :
    f8Encode p units = f8EncodeHigh p (decide (units < 0)) units.natAbs := by
  rw [f8Encode, if_neg (by omega), if_neg (by omega), if_neg (by omega)]

/-- The packed byte of a sum, with the sign as the statements write it. -/
theorem toNat_f8Pack_sign (units : Int) {e m : Nat} (he : e < 8) (hm : m < 16) :
    (f8Pack (decide (units < 0)) e m).toNat = (if units < 0 then 128 else 0) + 16 * e + m := by
  simp only [toNat_f8Pack _ he hm, decide_eq_true_eq]

/-- Settles O40: in the low band the mantissa is `M`, or `M` with its top bit moved to place 3; in the high band the logarithm is
11, so that `E` is 8. Each policy packs what R208 says. -/
theorem outOfBandEncoding : Obligations.OutOfBandEncoding := by
  refine ⟨fun units l low high lower upper => ?lowBand, fun units low high => ?highBand⟩
  case lowBand =>
    have log : units.natAbs.log2 = l := (Nat.log2_eq_iff (by omega)).2 ⟨lower, upper⟩
    have place : l < 3 := (Nat.pow_lt_pow_iff_right (a := 2) (by decide)).1 (by omega)
    have shifted : units.natAbs <<< (3 - l) = units.natAbs * 2 ^ (3 - l) := Nat.shiftLeft_eq _ _
    have fits : units.natAbs * 2 ^ (3 - l) < 16 := by
      calc units.natAbs * 2 ^ (3 - l) < 2 ^ (l + 1) * 2 ^ (3 - l) := Nat.mul_lt_mul_of_pos_right upper (Nat.two_pow_pos _)
        _ = 2 ^ 4 := by rw [← pow_add]; congr 1; omega
    simp only [f8Encode_of_lowBand _ low high, f8EncodeLow, log, shifted]
    refine ⟨?_, ?_, ?_⟩
    · exact toNat_f8Pack_sign units (by decide) (by omega)
    · exact toNat_f8Pack_sign units (by decide) fits
    · exact toNat_f8Pack_sign units (by omega) fits
  case highBand =>
    have log : units.natAbs.log2 = 11 := (Nat.log2_eq_iff (by omega)).2 ⟨low, by omega⟩
    have shifted (k : Nat) : units.natAbs >>> k = units.natAbs / 2 ^ k := Nat.shiftRight_eq_div_pow _ _
    simp only [f8Encode_of_highBand _ low, f8EncodeHigh, log, shifted]
    refine ⟨?_, ?_, ?_⟩
    · exact toNat_f8Pack_sign units (by decide) (Nat.mod_lt _ (by decide))
    · exact toNat_f8Pack_sign units (by decide) (by omega)
    · exact toNat_f8Pack_sign units (by decide) (by omega)

/-! ### The fields of a packed byte (R200) -/

theorem f8Mantissa_f8Pack (sign : Bool) {e m : Nat} (he : e < 8) (hm : m < 16) : f8Mantissa (f8Pack sign e m) = m := by
  rw [f8Mantissa, lowNibble_toNat, toNat_f8Pack sign he hm]
  cases sign <;> simp <;> omega

theorem f8Exponent_f8Pack (sign : Bool) {e m : Nat} (he : e < 8) (hm : m < 16) : f8Exponent (f8Pack sign e m) = e := by
  rw [f8Exponent, BitVec.extractLsb'_toNat, toNat_f8Pack sign he hm, Nat.shiftRight_eq_div_pow]
  cases sign <;> simp <;> omega

theorem f8Sign_f8Pack (sign : Bool) {e m : Nat} (he : e < 8) (hm : m < 16) : f8Sign (f8Pack sign e m) = sign := by
  rw [f8Sign, ← BitVec.msb_eq_getLsbD_last, BitVec.msb_eq_decide, toNat_f8Pack sign he hm]
  cases sign <;> simp <;> omega

/-- The value of a packed byte of a sum's sign: the magnitude `m * 2^e` on the sum's side of zero. -/
theorem f8Units_f8Pack (units : Int) {e m : Nat} (he : e < 8) (hm : m < 16) :
    f8Units (f8Pack (decide (units < 0)) e m) = if units < 0 then -((m * 2 ^ e : Nat) : Int) else (m * 2 ^ e : Nat) := by
  simp only [f8Units, f8Mantissa_f8Pack _ he hm, f8Exponent_f8Pack _ he hm, f8Sign_f8Pack _ he hm, decide_eq_true_eq]

/-- R207: in the normal band the byte packs some `E` of the band's binades and `M >> E`. -/
theorem f8Encode_normalBand_eq_f8Pack (p : F8RangePolicy) {units : Int} (low : 8 ≤ units.natAbs) (high : units.natAbs ≤ 2047) :
    ∃ e < 8, 8 ≤ units.natAbs / 2 ^ e ∧ units.natAbs / 2 ^ e < 16 ∧
      f8Encode p units = f8Pack (decide (units < 0)) e (units.natAbs / 2 ^ e) := by
  obtain ⟨e, he, lower, upper⟩ := (normalBand_iff units.natAbs).1 ⟨low, high⟩
  obtain ⟨mantissaLow, mantissaHigh⟩ := normalBand_mantissa lower upper
  exact ⟨e, Nat.lt_succ_of_le he, mantissaLow, mantissaHigh,
    (f8Encode_of_normalBand p low high).trans (f8EncodeNormal_eq_f8Pack _ lower upper)⟩

/-- Settles O43: the value is `M / 2^E * 2^E`, which is `M` without the remainder below `2^E`, on the sum's side of zero. -/
theorem normalBandTruncatesTowardZero : Obligations.NormalBandTruncatesTowardZero := by
  intro p units low high
  obtain ⟨e, he, mantissaLow, mantissaHigh, packed⟩ := f8Encode_normalBand_eq_f8Pack p low high
  simp only [packed, f8Units_f8Pack units he mantissaHigh, f8Exponent_f8Pack _ he mantissaHigh]
  have magnitude : 0 < units.natAbs / 2 ^ e * 2 ^ e := Nat.mul_pos (by omega) (Nat.two_pow_pos e)
  have truncated : units.natAbs / 2 ^ e * 2 ^ e ≤ units.natAbs := Nat.div_mul_le_self _ _
  have within : units.natAbs < units.natAbs / 2 ^ e * 2 ^ e + 2 ^ e := Nat.lt_div_mul_add (Nat.two_pow_pos e)
  generalize units.natAbs / 2 ^ e * 2 ^ e = value at magnitude truncated within ⊢
  by_cases negative : units < 0
  · rw [if_pos negative, Int.natAbs_neg]
    exact ⟨truncated, within, Int.mul_pos_of_neg_of_neg (by omega) negative⟩
  · rw [if_neg negative]
    exact ⟨truncated, within, Int.mul_pos (by omega) (by omega)⟩

/-! ### The loop of R209 -/

/-- The first loop stops below 1. -/
theorem f8Halve_stop (fuel : Nat) {a : Nat} (e : Nat) (below : a < 2048) : f8Halve fuel a e = (a, e) := by
  cases fuel with
  | zero => rfl
  | succ fuel => exact if_neg (Nat.not_le.2 below)

/-- The first loop halves `k` times where `a` is at least `2^(k-1)`. -/
theorem f8Halve_add (fuel k : Nat) {a e : Nat} (above : 1024 * 2 ^ k ≤ a) :
    f8Halve (fuel + k) a e = f8Halve fuel (a / 2 ^ k) (e + k) := by
  induction k generalizing a e with
  | zero => rw [pow_zero, Nat.div_one]; rfl
  | succ k ih =>
    have halves : 2048 * 2 ^ k ≤ a := by rw [pow_succ] at above; omega
    have halved : 2048 ≤ a := (Nat.le_mul_of_pos_right 2048 (Nat.two_pow_pos k)).trans halves
    have step : f8Halve (fuel + (k + 1)) a e = f8Halve (fuel + k) (a / 2) (e + 1) := if_pos halved
    rw [step, ih (by omega), Nat.div_div_eq_div_mul, ← pow_succ', Nat.add_right_comm e, Nat.add_assoc e]

/-- The second loop stops from 1/2 on. -/
theorem f8Double_stop (e : Nat) {a : Nat} (above : 1024 ≤ a) : f8Double e a = (a, e) := by
  cases e with
  | zero => rfl
  | succ e => exact if_neg (Nat.not_lt.2 above)

/-- The second loop doubles `k` times where that keeps `a` below 1. -/
theorem f8Double_add (e k : Nat) {a : Nat} (below : a * 2 ^ k < 2048) : f8Double (e + k) a = f8Double e (a * 2 ^ k) := by
  induction k generalizing a with
  | zero => rw [pow_zero, Nat.mul_one]; rfl
  | succ k ih =>
    have doubles : 2 * a * 2 ^ k = a * 2 ^ (k + 1) := by ring
    have doubled : a < 1024 := by
      have := Nat.le_mul_of_pos_right (2 * a) (Nat.two_pow_pos k)
      omega
    have step : f8Double (e + (k + 1)) a = f8Double (e + k) (2 * a) := if_pos doubled
    rw [step, ih (by omega), doubles]

/-- The two loops from the magnitude `m`, as R209 runs them: the normalized `a` and its exponent. -/
def normalize (m : Nat) : Nat × Nat :=
  f8Double (f8Halve 3 (8 * m) 4).2 (f8Halve 3 (8 * m) 4).1

theorem f8EncodeBoundedLoop_of_normalize {units : Int} {a e : Nat} (h : normalize units.natAbs = (a, e)) :
    f8EncodeBoundedLoop units = f8Pack (decide (units < 0)) e (a / 128 % 16) := by
  rw [f8EncodeBoundedLoop, ← normalize, h]

/-- Below the normal band the second loop runs to its bound. -/
theorem normalize_low {m : Nat} (high : m ≤ 7) : normalize m = (128 * m, 0) := by
  rw [normalize, f8Halve_stop 3 4 (by omega), f8Double_add 0 4 (by omega), f8Double]
  congr 1
  omega

/-- Above the normal band the first loop runs to its bound. -/
theorem normalize_high {m : Nat} (low : 2048 ≤ m) : normalize m = (m, 7) := by
  have thrice : 8 * m / 2 ^ 3 = m := by omega
  rw [normalize, f8Halve_add 0 3 (by omega), thrice, f8Halve, f8Double_stop 7 (by omega)]

/-- In the lower binades of the normal band, `E = 4 - k`, the second loop doubles `k` times. -/
theorem normalize_doubling {m e k : Nat} (hk : e + k = 4) (lower : 2 ^ (e + 3) ≤ m) (upper : m < 2 ^ (e + 4)) :
    normalize m = (8 * (m * 2 ^ k), e) := by
  have power : 2 ^ e * 2 ^ k = 16 := by rw [← pow_add, hk]; rfl
  have scaledLower : 2 ^ (e + 3) * 2 ^ k ≤ m * 2 ^ k := Nat.mul_le_mul_right _ lower
  have scaledUpper : m * 2 ^ k < 2 ^ (e + 4) * 2 ^ k := Nat.mul_lt_mul_of_pos_right upper (Nat.two_pow_pos k)
  rw [pow_add, Nat.mul_right_comm, power] at scaledLower scaledUpper
  have small : m ≤ m * 2 ^ k := Nat.le_mul_of_pos_right m (Nat.two_pow_pos k)
  rw [normalize, f8Halve_stop 3 4 (by omega), ← hk, f8Double_add e k (by rw [Nat.mul_assoc]; omega), Nat.mul_assoc,
    f8Double_stop e (by omega)]

/-- In the upper binades, `E = 4 + k`, the first loop halves `k` times. -/
theorem normalize_halving {m k : Nat} (hk : k ≤ 3) (lower : 2 ^ (4 + k + 3) ≤ m) (upper : m < 2 ^ (4 + k + 4)) :
    normalize m = (8 * m / 2 ^ k, 4 + k) := by
  obtain ⟨fuel, hfuel⟩ := Nat.exists_eq_add_of_le' hk
  have scaledLower : 1024 * 2 ^ k ≤ 8 * m := by rw [show 4 + k + 3 = 7 + k by omega, pow_add] at lower; omega
  have scaledUpper : 8 * m < 2048 * 2 ^ k := by rw [show 4 + k + 4 = 8 + k by omega, pow_add] at upper; omega
  have above : 1024 ≤ 8 * m / 2 ^ k := (Nat.le_div_iff_mul_le (Nat.two_pow_pos k)).2 scaledLower
  have below : 8 * m / 2 ^ k < 2048 := (Nat.div_lt_iff_lt_mul (Nat.two_pow_pos k)).2 scaledUpper
  rw [normalize, hfuel, f8Halve_add fuel k scaledLower, f8Halve_stop fuel (4 + k) below, f8Double_stop (4 + k) above]

/-- In the normal band the loops stop at R207's `E`, with the mantissa on top. -/
theorem normalize_normal {m e : Nat} (he : e ≤ 7) (lower : 2 ^ (e + 3) ≤ m) (upper : m < 2 ^ (e + 4)) :
    ∃ a, normalize m = (a, e) ∧ a / 128 = m / 2 ^ e := by
  rcases Nat.le_total e 4 with doubles | halves
  · obtain ⟨k, hk⟩ := Nat.exists_eq_add_of_le doubles
    refine ⟨_, normalize_doubling hk.symm lower upper, ?_⟩
    have power : 2 ^ e * 2 ^ k = 16 := by rw [← pow_add, ← hk]; rfl
    calc 8 * (m * 2 ^ k) / 128 = m * 2 ^ k / 16 := by omega
      _ = m * 2 ^ k / (2 ^ e * 2 ^ k) := by rw [power]
      _ = m / 2 ^ e := Nat.mul_div_mul_right _ _ (Nat.two_pow_pos k)
  · obtain ⟨k, rfl⟩ := Nat.exists_eq_add_of_le halves
    refine ⟨_, normalize_halving (by omega) lower upper, ?_⟩
    calc 8 * m / 2 ^ k / 128 = 8 * m / (8 * 2 ^ (4 + k)) := by rw [Nat.div_div_eq_div_mul, pow_add]; congr 1; omega
      _ = m / 2 ^ (4 + k) := Nat.mul_div_mul_left _ _ (by decide)

/-- Settles O41: band by band, what the loops leave is what the closed form packs. -/
theorem boundedLoopEqualsClosedForm : Obligations.BoundedLoopEqualsClosedForm := by
  intro units domain
  by_cases normal : 8 ≤ units.natAbs ∧ units.natAbs ≤ 2047
  · obtain ⟨low, high⟩ := normal
    obtain ⟨e, he, lower, upper⟩ := (normalBand_iff units.natAbs).1 ⟨low, high⟩
    obtain ⟨a, normalized, mantissa⟩ := normalize_normal he lower upper
    rw [f8EncodeBoundedLoop_of_normalize normalized, f8Encode_of_normalBand _ low high,
      f8EncodeNormal_eq_f8Pack _ lower upper, mantissa, Nat.mod_eq_of_lt (normalBand_mantissa lower upper).2]
  · rcases Nat.lt_or_ge units.natAbs 8 with below | above
    · rw [f8EncodeBoundedLoop_of_normalize (normalize_low (Nat.le_of_lt_succ below)), Nat.mul_div_cancel_left _ (by decide),
        Nat.mod_eq_of_lt (by omega)]
      by_cases zero : units = 0
      · subst zero; rfl
      · rw [f8Encode_of_lowBand .bounded (by omega) (by omega), f8EncodeLow]
    · rw [f8EncodeBoundedLoop_of_normalize (normalize_high (by omega)), f8Encode_of_highBand .bounded (by omega), f8EncodeHigh,
        Nat.shiftRight_eq_div_pow]

/-! ### Add2's sum -/

/-- Settles O44: the exact sum is the integer sum, which is zero, and the byte of zero is 0x00. -/
theorem zeroSumGivesZeroByte : Obligations.ZeroSumGivesZeroByte := by
  intro r src1 src2 s zero
  have sum : f8Sum (s.readReg src1) (s.readReg src2) = 0 := by
    rw [← f8Sum_div_eq_decode_add, div_eq_zero_iff, or_iff_left (by norm_num)] at zero
    exact_mod_cast zero
  refine ⟨_, rfl, ?_⟩
  rw [State.signalContinue_readReg, State.readReg_writeReg, if_pos rfl, sum, f8Encode_zero]

/-- Settles O45: both read their sources from the same state and add them as integers. -/
theorem add2Commutes : Obligations.Add2Commutes := by
  intro r src1 src2 s
  have sum : f8Sum (s.readReg src1) (s.readReg src2) = f8Sum (s.readReg src2) (s.readReg src1) := Int.add_comm _ _
  simp only [exec, execAdd2, sum]

/-! ### The round trips of R210 -/

/-- R210's first law, over the 256 bytes. -/
theorem roundTrip_bounded : ∀ b : Byte, f8Units (f8Encode .bounded (f8Units b)) = f8Units b := by
  decide

/-- The bytes, without their sign bit, whose value does not survive Clamp or Wrap: those of a value that is not zero and lies below
the normal band. -/
def lostBelowNormal : List Nat := [0x01, 0x02, 0x03, 0x04, 0x05, 0x06, 0x07, 0x11, 0x12, 0x13, 0x21]

theorem roundTrip_clamp_fails_iff :
    ∀ b : Byte, f8Units (f8Encode .clamp (f8Units b)) ≠ f8Units b ↔ b.toNat % 128 ∈ lostBelowNormal := by
  decide

theorem roundTrip_wrap_fails_iff :
    ∀ b : Byte, f8Units (f8Encode .wrap (f8Units b)) ≠ f8Units b ↔ b.toNat % 128 ∈ lostBelowNormal := by
  decide

/-- The byte of the number `n` is not the encoding of its own value under Bounded. -/
def notReencoded (n : Nat) : Bool := f8Encode .bounded (f8Units (BitVec.ofNat 8 n)) != BitVec.ofNat 8 n

/-- R210's third law: 56 of the bytes without the sign bit, and the same 56 and minus zero among those with it. -/
theorem length_filter_notReencoded : ((List.range 256).filter notReencoded).length = 113 := by
  have bySign : List.range 256 = List.range 128 ++ (List.range 128).map (128 + ·) := List.range_add (n := 128) (m := 128)
  have positive : ((List.range 128).filter notReencoded).length = 56 := by decide
  have negative : (((List.range 128).map (128 + ·)).filter notReencoded).length = 57 := by decide
  rw [bySign, List.filter_append, List.length_append, positive, negative]

/-- Settles O42: each law is about the 256 bytes, and is evaluated at each of them. -/
theorem roundTripLaws : Obligations.RoundTripLaws := by
  refine ⟨roundTrip_bounded, fun p b policy => ?_, length_filter_notReencoded⟩
  rcases policy with rfl | rfl
  · exact roundTrip_clamp_fails_iff b
  · exact roundTrip_wrap_fails_iff b

end Sys2Proof.Proofs
end

section
/-! Reset, construction and the host's accesses (R32, R300, R302, D1, D9, D19), and the bounded `Run()` (R121, R122, R124, R128,
R241). -/

namespace Sys2Proof.Proofs

open Sys2Proof Sys2Proof.Machine

/-! ### Reset and construction -/

/-- The registers after reset are zero (R33). -/
theorem getElem_replicate_zero (r : RegIdx) : (Vector.replicate 16 (0x00 : Byte))[r] = 0x00 :=
  Vector.getElem_replicate r.isLt

/-- Settles O46: the reset value of each field, and the two that `Reset()` does not touch. -/
theorem resetZeroesTheMachine : Obligations.ResetZeroesTheMachine := fun _ =>
  ⟨getElem_replicate_zero, rfl, fun _ => rfl, rfl, rfl, rfl, rfl, rfl, rfl⟩

/-- Different numbers below 256 are different addresses. -/
theorem ofNat_ne_ofNat {j k : Nat} (hj : j < 256) (hk : k < 256) (ne : j ≠ k) : BitVec.ofNat 8 j ≠ BitVec.ofNat 8 k := by
  intro same
  have numbers : j % 256 = k % 256 := congrArg BitVec.toNat same
  omega

/-- The memory built from a list of cells, at the address of the list's entry `i`. -/
theorem read_ofCells {start i : Nat} {cells : List Byte} (fits : start + cells.length ≤ 256) (hi : i < cells.length) :
    (Memory.ofCells start cells).read (BitVec.ofNat 8 (start + i)) = cells[i] := by
  induction cells generalizing start i with
  | nil => exact absurd hi (Nat.not_lt_zero i)
  | cons v rest ih =>
    rw [List.length_cons] at fits hi
    rw [Memory.ofCells, Memory.read_write]
    cases i with
    | zero => exact if_pos rfl
    | succ i =>
      have next : start + (i + 1) = start + 1 + i := by omega
      rw [if_neg (ofNat_ne_ofNat (by omega) (by omega) (by omega)), next]
      exact ih (by omega) (by omega)

/-- Settles O47: the refusal is the table's check, and each field of the power-on state is its draw. -/
theorem constructionGivesThePowerOnState : Obligations.ConstructionGivesThePowerOnState := by
  refine ⟨fun d p o other => ?refused, fun p => rfl, fun p regs pc cells => ?drawn⟩
  case refused =>
    have illFormed : d.wellFormed = false := beq_false_of_ne other
    simp only [construct, illFormed, Bool.false_eq_true, if_false]
  case drawn =>
    refine ⟨_, rfl, fun _ => rfl, rfl, fun a => ?_, rfl, rfl, rfl, Memory.wf_ofCells 0 _⟩
    have cell := read_ofCells (start := 0) (i := a.toNat) (cells := cells.toList) (by simp) (by simp [a.isLt])
    rw [Nat.zero_add, BitVec.ofNat_toNat, BitVec.setWidth_eq] at cell
    exact cell

/-! ### The host's accesses -/

/-- Settles O48: each write is one of the state's updates, and the rules for reading after it. -/
theorem hostAccessReadsAndWritesOnePlace : Obligations.HostAccessReadsAndWritesOnePlace := fun s =>
  ⟨fun a v => ⟨fun b => s.readMem_writeMem a b v, rfl, rfl, rfl, rfl, ⟨rfl, rfl, rfl⟩⟩,
   fun r v => ⟨fun q => s.readReg_writeReg r q v, rfl, rfl, rfl, rfl, ⟨rfl, rfl, rfl⟩⟩,
   fun _ => ⟨rfl, rfl, rfl, rfl, rfl, ⟨rfl, rfl, rfl⟩⟩⟩

/-! ### One `Step()` of a `Run()` -/

/-- A step that leaves `Halted` ends the run. -/
theorem hostRun_of_step_halts {s t : State} (n : Nat) (h : step s = .next t) (halts : t.seq = .halted) :
    hostRun (n + 1) s = .next ⟨t, true, if s.isHalted then 0 else 1⟩ := by
  rw [hostRun, hostStep_of_step h, t.isHalted_iff.2 halts]

/-- After any other step the run goes on with one `Step()` less, and counts that step. -/
theorem hostRun_of_step_continues {s t : State} {n : Nat} {report : RunReport} (h : step s = .next t)
    (continues : t.seq ≠ .halted) (rest : hostRun n t = .next report) :
    hostRun (n + 1) s = .next { report with executed := report.executed + 1 } := by
  have value : t.isHalted = false := Bool.eq_false_iff.2 fun e => continues (t.isHalted_iff.1 e)
  rw [hostRun, hostStep_of_step h, value]
  simp only [rest]

/-- Settles O49: the one step changes nothing, ends the run, and started in `Halted`. -/
theorem runInHaltedReturnsAtOnce : Obligations.RunInHaltedReturnsAtOnce := by
  intro n s hs
  rw [hostRun_of_step_halts n (step_of_halted hs) hs, if_pos (s.isHalted_iff.2 hs)]

/-! ### The run as repeated steps -/

/-- A run's first step. -/
theorem run_succ {M : Host.Core} {s t : M.State} (k : Nat) (h : M.step s = .next t) : M.run (k + 1) s = M.run k t := by
  rw [Host.Core.run, h]

/-- What a report says of a run with the bound `n` from `s` (R121, R124, R128). That a run that has not ended is not in `Halted`
is said from where it started, so that one more step in front of it keeps it. -/
structure ReportsRun (n : Nat) (s : State) (report : RunReport) : Prop where
  reached : Sys2Proof.core.run report.executed s = .next report.state
  bounded : report.executed ≤ n
  ended : report.ended = true → n ≠ 0 ∧ report.state.seq = .halted
  unended : report.ended = false → report.executed = n
  running : report.ended = false → n ≠ 0 ∨ s.seq ≠ .halted → report.state.seq ≠ .halted

/-- A step that ends the run is one counted step, or none if it started in `Halted` (R128). -/
theorem reportsRun_of_step_halts {s t : State} (n : Nat) (h : step s = .next t) (halts : t.seq = .halted) :
    ReportsRun (n + 1) s ⟨t, true, if s.isHalted then 0 else 1⟩ where
  reached := by
    by_cases hs : s.seq = .halted
    · obtain rfl := eq_of_step_of_halted hs h
      rw [if_pos (s.isHalted_iff.2 hs)]
      rfl
    · rw [if_neg (mt s.isHalted_iff.1 hs)]
      exact run_succ 0 h
  bounded := by
    show (if s.isHalted then 0 else 1) ≤ n + 1
    split <;> omega
  ended _ := ⟨n.succ_ne_zero, halts⟩
  unended := nofun
  running := nofun

/-- A step that continues puts one counted step in front of the run. -/
theorem reportsRun_of_step_continues {s t : State} {n : Nat} {report : RunReport} (h : step s = .next t)
    (continues : t.seq ≠ .halted) (reports : ReportsRun n t report) :
    ReportsRun (n + 1) s { report with executed := report.executed + 1 } where
  reached := (run_succ _ h).trans reports.reached
  bounded := Nat.succ_le_succ reports.bounded
  ended hasEnded := ⟨n.succ_ne_zero, (reports.ended hasEnded).2⟩
  unended notEnded := congrArg (· + 1) (reports.unended notEnded)
  running notEnded _ := reports.running notEnded (.inr continues)

/-- Every bounded run answers such a report: by induction on the bound, along the steps that continue. -/
theorem hostRun_reports (n : Nat) (s : State) : ∃ report, hostRun n s = .next report ∧ ReportsRun n s report := by
  induction n generalizing s with
  | zero => exact ⟨_, rfl, rfl, le_rfl, nofun, fun _ => rfl, fun _ start => start.resolve_left (not_not_intro rfl)⟩
  | succ n ih =>
    obtain ⟨t, ht⟩ := everyInstructionAndStepCompletes.2 s
    by_cases halts : t.seq = .halted
    · exact ⟨_, hostRun_of_step_halts n ht halts, reportsRun_of_step_halts n ht halts⟩
    · obtain ⟨report, answers, reports⟩ := ih t
      exact ⟨_, hostRun_of_step_continues ht halts answers, reportsRun_of_step_continues ht halts reports⟩

/-- Settles O50: the parts of the report. -/
theorem runIsRepeatedStep : Obligations.RunIsRepeatedStep := by
  intro n s
  obtain ⟨report, answers, reports⟩ := hostRun_reports n s
  have halted_ended : n ≠ 0 ∧ report.state.seq = .halted → report.ended = true := fun ⟨hn, halted⟩ =>
    Bool.of_not_eq_false fun notEnded => reports.running notEnded (.inl hn) halted
  exact ⟨report, answers, reports.reached, fun hasEnded => (reports.ended hasEnded).2, reports.unended, reports.bounded,
    reports.ended, halted_ended⟩

/-! ### A run over zero memory -/

/-- Two zero bytes are the word of Nothing (R241). -/
theorem decodeAt_of_zero {s : State} (zero : ∀ a, s.readMem a = 0x00) (a : Addr) : s.decodeAt a = .nothing 0 := by
  rw [State.decodeAt, State.wordAt, zero, zero]
  exact decodeWord_nothing 0

/-- R241: over zero memory the step runs Nothing on the latched state. -/
theorem step_of_zero {s : State} (hs : s.seq ≠ .halted) (zero : ∀ a, s.readMem a = 0x00) :
    step s = .next s.latch.signalContinue := by
  rw [step_of_not_halted hs, decodeAt_of_zero zero]
  rfl

/-- Two past the pc, `n` times more, modulo 256. -/
theorem toNat_add_two_mul (a : Addr) (n : Nat) : ((a + 2).toNat + 2 * n) % 256 = (a.toNat + 2 * (n + 1)) % 256 := by
  have sum : (a + 2).toNat = (a.toNat + 2) % 256 := BitVec.toNat_add a 2
  omega

/-- Settles O51: each step leaves a running state over the same zero memory, so the run uses any bound up. -/
theorem runOverZeroMemoryNeverEnds : Obligations.RunOverZeroMemoryNeverEnds := by
  intro s hs zero
  refine ⟨⟨_, step_of_zero hs zero, rfl, rfl, zero⟩, fun n => ?_⟩
  induction n generalizing s with
  | zero => exact ⟨_, rfl, rfl, rfl, (Nat.mod_eq_of_lt s.pc.isLt).symm, zero⟩
  | succ n ih =>
    have continues : s.latch.signalContinue.seq ≠ .halted := by simp
    obtain ⟨report, answers, unended, executed, pc, cells⟩ := ih s.latch.signalContinue continues zero
    exact ⟨_, hostRun_of_step_continues (step_of_zero hs zero) continues answers, unended, congrArg (· + 1) executed,
      pc.trans (toNat_add_two_mul s.pc n), cells⟩

end Sys2Proof.Proofs
end

section
/-! What a load writes (R306, R307, D13) and the token grammar (R311, D12). -/

namespace Sys2Proof.Proofs

open Sys2Proof Sys2Proof.Machine

/-! ### The cells that words are written to -/

/-- The state after words are written from `at_` on, high byte first (R306). -/
def writeWords : List Word → Nat → State → State
  | [], _, s => s
  | w :: rest, at_, s =>
    writeWords rest (at_ + 2)
      ((s.writeMem (BitVec.ofNat 8 at_) (w.extractLsb' 8 8)).writeMem (BitVec.ofNat 8 (at_ + 1)) (w.extractLsb' 0 8))

/-- Tokens of words that fit load without error, and leave the words written. -/
theorem loadTokens_of_fit {toks : List (List Char)} {words : List Word} {at_ : Nat} (s : State)
    (parsed : toks.map parseToken = words.map some) (fits : at_ + 2 * words.length ≤ 256) :
    loadTokens toks at_ s = ⟨writeWords words at_ s, none⟩ := by
  induction words generalizing toks at_ s with
  | nil =>
    obtain rfl := List.map_eq_nil_iff.1 parsed
    rfl
  | cons w words ih =>
    obtain ⟨token, rest, rfl, first, others⟩ := List.map_eq_cons_iff.1 parsed
    rw [List.length_cons] at fits
    rw [loadTokens_good rest s first (by omega)]
    exact ih _ others (by omega)

/-- A cell outside the range of the words is as before. -/
theorem readMem_writeWords_outside {words : List Word} {at_ : Nat} (s : State) {a : Addr}
    (fits : at_ + 2 * words.length ≤ 256) (outside : a.toNat < at_ ∨ at_ + 2 * words.length ≤ a.toNat) :
    (writeWords words at_ s).readMem a = s.readMem a := by
  induction words generalizing at_ s with
  | nil => rfl
  | cons w words ih =>
    rw [List.length_cons] at fits outside
    have other (k : Nat) (hk : k < 256) (ne : a.toNat ≠ k) : a ≠ BitVec.ofNat 8 k := by
      rintro rfl
      exact ne (Nat.mod_eq_of_lt hk)
    rw [writeWords, ih _ (by omega) (by omega), State.readMem_writeMem, if_neg (other _ (by omega) (by omega)),
      State.readMem_writeMem, if_neg (other _ (by omega) (by omega))]

/-- The two cells of word `i` hold its high and its low byte: its own write puts them there, and no later one reaches them. -/
theorem readMem_writeWords_inside {words : List Word} {at_ i : Nat} (s : State) (fits : at_ + 2 * words.length ≤ 256)
    (hi : i < words.length) :
    (writeWords words at_ s).readMem (BitVec.ofNat 8 (at_ + 2 * i)) = (words[i]).extractLsb' 8 8 ∧
    (writeWords words at_ s).readMem (BitVec.ofNat 8 (at_ + 2 * i + 1)) = (words[i]).extractLsb' 0 8 := by
  induction words generalizing at_ i s with
  | nil => exact absurd hi (Nat.not_lt_zero i)
  | cons w words ih =>
    rw [List.length_cons] at fits hi
    cases i with
    | zero =>
      have number {k : Nat} (hk : k < 256) : (BitVec.ofNat 8 k).toNat = k := Nat.mod_eq_of_lt hk
      have low : BitVec.ofNat 8 at_ ≠ BitVec.ofNat 8 (at_ + 1) := ofNat_ne_ofNat (by omega) (by omega) (by omega)
      rw [Nat.mul_zero, Nat.add_zero, writeWords,
        readMem_writeWords_outside _ (by omega) (by rw [number (by omega)]; omega),
        readMem_writeWords_outside _ (by omega) (by rw [number (by omega)]; omega)]
      simp only [State.readMem_writeMem, if_true, if_neg low, List.getElem_cons_zero, and_self]
    | succ i =>
      have next : at_ + 2 * (i + 1) = at_ + 2 + 2 * i := by omega
      rw [next]
      exact ih _ (by omega) (by omega)

/-- Settles O53: the load leaves the words written. -/
theorem loadProgramWritesEveryToken : Obligations.LoadProgramWritesEveryToken := by
  intro chars start s words parsed fits
  have loaded : hostLoadProgram (.text chars) start s = ⟨writeWords words start.toNat s, none⟩ :=
    loadTokens_of_fit s parsed fits
  rw [loaded]
  exact ⟨rfl, fun _ hi => readMem_writeWords_inside s fits hi, fun _ => readMem_writeWords_outside s fits⟩

/-- R307: a load of more words than fit leaves as many written as do, and fails at the next. -/
theorem loadTokens_of_overflow {toks : List (List Char)} {words : List Word} {at_ capacity : Nat} (s : State)
    (parsed : toks.map parseToken = words.map some) (more : capacity < words.length) (fits : at_ + 2 * capacity ≤ 256)
    (full : 255 < at_ + 2 * capacity + 1) :
    loadTokens toks at_ s = ⟨writeWords (words.take capacity) at_ s, some .tooManyInstructions⟩ := by
  have count : toks.length = words.length := by simpa using congrArg List.length parsed
  have front : (toks.take capacity).map parseToken = (words.take capacity).map some := by
    rw [List.map_take, List.map_take, parsed]
  have back : (toks.drop capacity).map parseToken = (words.drop capacity).map some := by
    rw [List.map_drop, List.map_drop, parsed]
  have written : loadTokens (toks.take capacity) at_ s = ⟨writeWords (words.take capacity) at_ s, none⟩ :=
    loadTokens_of_fit s front (by rw [List.length_take]; omega)
  have frontLength : (toks.take capacity).length = capacity := by rw [List.length_take]; omega
  rw [List.drop_eq_getElem_cons more, List.map_cons] at back
  obtain ⟨token, rest, split, first, -⟩ := List.map_eq_cons_iff.1 back
  rw [← List.take_append_drop capacity toks, loadTokens_append _ (by rw [written]), written, frontLength, split,
    loadTokens_full rest _ first full]

/-- Settles O54: the capacity is the number of words that fit, and fewer than there are. -/
theorem loadProgramStopsAtCapacity : Obligations.LoadProgramStopsAtCapacity := by
  intro chars start s words parsed overflow report capacity
  have inMemory : start.toNat < 256 := start.isLt
  have more : capacity < words.length := by omega
  have fits : start.toNat + 2 * capacity ≤ 256 := by omega
  have frontLength : (words.take capacity).length = capacity := by rw [List.length_take]; omega
  have loaded : report = ⟨writeWords (words.take capacity) start.toNat s, some .tooManyInstructions⟩ :=
    loadTokens_of_overflow s parsed more fits (by omega)
  rw [loaded]
  rw [← frontLength] at fits
  refine ⟨rfl, fun i hi below => ?inside, fun a outside => readMem_writeWords_outside s fits (by rwa [frontLength])⟩
  case inside =>
    have cells := readMem_writeWords_inside s fits (i := i) (by omega)
    rwa [List.getElem_take] at cells

/-! ### The tokens of a text (R306, R311) -/

theorem tokensFrom_separator {c : Char} (current rest : List Char) (h : isSeparator c = true) :
    tokensFrom current (c :: rest) = tokensFrom current [] ++ tokens rest := by
  simp only [tokensFrom, tokens, h, if_true]
  split <;> rfl

theorem tokensFrom_character {c : Char} (current rest : List Char) (h : isSeparator c = false) :
    tokensFrom current (c :: rest) = tokensFrom (c :: current) rest := by
  rw [tokensFrom, if_neg (Bool.eq_false_iff.1 h)]

/-- A separator ends the token being read, wherever it stands. -/
theorem tokensFrom_append_separator {c : Char} (current a b : List Char) (h : isSeparator c = true) :
    tokensFrom current (a ++ c :: b) = tokensFrom current a ++ tokens b := by
  induction a generalizing current with
  | nil => exact tokensFrom_separator current b h
  | cons d a ih =>
    rw [List.cons_append]
    cases hd : isSeparator d with
    | true =>
      rw [tokensFrom_separator _ _ hd, tokensFrom_separator _ _ hd, List.append_assoc]
      exact congrArg _ (ih [])
    | false => rw [tokensFrom_character _ _ hd, tokensFrom_character _ _ hd, ih]

/-- Characters that are no separators join the token being read. -/
theorem tokensFrom_run {a : List Char} (current : List Char) (run : ∀ c ∈ a, isSeparator c = false) :
    tokensFrom current a = tokensFrom (a.reverse ++ current) [] := by
  induction a generalizing current with
  | nil => rfl
  | cons c a ih =>
    obtain ⟨first, others⟩ := List.forall_mem_cons.1 run
    rw [tokensFrom_character _ _ first, ih _ others, List.reverse_cons, List.append_assoc, List.singleton_append]

/-- A run of such characters that is not empty is one token. -/
theorem tokens_run {a : List Char} (nonempty : a ≠ []) (run : ∀ c ∈ a, isSeparator c = false) : tokens a = [a] := by
  rw [tokens, tokensFrom_run [] run, List.append_nil, tokensFrom, if_neg (by simpa using nonempty), List.reverse_reverse]

/-- A text of separators has no token. -/
theorem tokens_separators {a : List Char} (run : ∀ c ∈ a, isSeparator c = true) : tokens a = [] := by
  induction a with
  | nil => rfl
  | cons c a ih =>
    obtain ⟨first, others⟩ := List.forall_mem_cons.1 run
    rw [tokens, tokensFrom_separator _ _ first, ih others]
    rfl

theorem isSeparator_iff (c : Char) : isSeparator c = true ↔ c ∈ [' ', '\t', '\r', '\n'] := by
  simp only [isSeparator, Bool.or_eq_true, beq_iff_eq, List.mem_cons, List.not_mem_nil, or_false, or_assoc]

/-! ### The value of a token (R311) -/

/-- The hexadecimal digits, either case. -/
def hexDigits : List Char :=
  ['0', '1', '2', '3', '4', '5', '6', '7', '8', '9', 'a', 'b', 'c', 'd', 'e', 'f', 'A', 'B', 'C', 'D', 'E', 'F']

/-- A digit's value: its place among the sixteen digits, an upper-case one taken as lower-case. -/
def digitValue (c : Char) : Nat :=
  ['0', '1', '2', '3', '4', '5', '6', '7', '8', '9', 'a', 'b', 'c', 'd', 'e', 'f'].idxOf c.toLower

/-- The number that a token's characters stand for after the number `n`. -/
def hexNumber (n : Nat) (token : List Char) : Nat := token.foldl (fun n c => 16 * n + digitValue c) n

/-- The model's value of each of the 22 digits. -/
theorem hexDigit?_of_mem {c : Char} (hc : c ∈ hexDigits) : hexDigit? c = some (digitValue c) := by
  rw [hexDigits] at hc
  fin_cases hc <;> rfl

theorem digitValue_lt {c : Char} (hc : c ∈ hexDigits) : digitValue c < 16 := by
  rw [hexDigits] at hc
  fin_cases hc <;> decide

/-- The characters of the model's three ranges are the listed digits. -/
theorem mem_hexDigits_of_range {c : Char}
    (h : (48 ≤ c.toNat ∧ c.toNat ≤ 57) ∨ (97 ≤ c.toNat ∧ c.toNat ≤ 102) ∨ (65 ≤ c.toNat ∧ c.toNat ≤ 70)) : c ∈ hexDigits := by
  have all : ∀ n < 128, (48 ≤ n ∧ n ≤ 57) ∨ (97 ≤ n ∧ n ≤ 102) ∨ (65 ≤ n ∧ n ≤ 70) → Char.ofNat n ∈ hexDigits := by decide
  rw [← Char.ofNat_toNat c]
  exact all c.toNat (by omega) h

/-- A character that is no digit has no value. -/
theorem hexDigit?_of_not_mem {c : Char} (h : c ∉ hexDigits) : hexDigit? c = none := by
  have decimal : ¬ ('0'.toNat ≤ c.toNat ∧ c.toNat ≤ '9'.toNat) := fun range => h (mem_hexDigits_of_range (.inl range))
  have lower : ¬ ('a'.toNat ≤ c.toNat ∧ c.toNat ≤ 'f'.toNat) := fun range => h (mem_hexDigits_of_range (.inr (.inl range)))
  have upper : ¬ ('A'.toNat ≤ c.toNat ∧ c.toNat ≤ 'F'.toNat) := fun range => h (mem_hexDigits_of_range (.inr (.inr range)))
  rw [hexDigit?, if_neg decimal, if_neg lower, if_neg upper]

/-- Digits are read to their number. -/
theorem hexValue?_of_digits {token : List Char} (n : Nat) (digits : ∀ c ∈ token, c ∈ hexDigits) :
    hexValue? n token = some (hexNumber n token) := by
  induction token generalizing n with
  | nil => rfl
  | cons c token ih =>
    obtain ⟨first, others⟩ := List.forall_mem_cons.1 digits
    rw [hexValue?, hexDigit?_of_mem first]
    exact ih _ others

/-- A character that is no digit leaves the token without a value. -/
theorem hexValue?_of_not_digits {token : List Char} (n : Nat) (bad : ¬ ∀ c ∈ token, c ∈ hexDigits) :
    hexValue? n token = none := by
  induction token generalizing n with
  | nil => exact absurd (fun c hc => absurd hc List.not_mem_nil) bad
  | cons c token ih =>
    by_cases hc : c ∈ hexDigits
    · rw [hexValue?, hexDigit?_of_mem hc]
      exact ih _ fun others => bad (List.forall_mem_cons.2 ⟨hc, others⟩)
    · rw [hexValue?, hexDigit?_of_not_mem hc]

/-- Each digit counts less than 16. -/
theorem hexNumber_lt {token : List Char} (n : Nat) (digits : ∀ c ∈ token, c ∈ hexDigits) :
    hexNumber n token < (n + 1) * 16 ^ token.length := by
  induction token generalizing n with
  | nil => simp [hexNumber]
  | cons c token ih =>
    obtain ⟨first, others⟩ := List.forall_mem_cons.1 digits
    have digit := digitValue_lt first
    calc hexNumber (16 * n + digitValue c) token < (16 * n + digitValue c + 1) * 16 ^ token.length := ih _ others
      _ ≤ (16 * (n + 1)) * 16 ^ token.length := Nat.mul_le_mul_right _ (by omega)
      _ = (n + 1) * 16 ^ (c :: token).length := by rw [List.length_cons, pow_succ']; ring

/-- A token is accepted exactly as 1 to 4 hexadecimal digits, and stands for their number (R311). -/
theorem parseToken_eq_some_iff (token : List Char) (w : Word) :
    parseToken token = some w ↔
      (1 ≤ token.length ∧ token.length ≤ 4 ∧ ∀ c ∈ token, c ∈ hexDigits) ∧ w = BitVec.ofNat 16 (hexNumber 0 token) := by
  rw [parseToken]
  by_cases length : token.length = 0 ∨ 4 < token.length
  · rw [if_pos length]
    exact iff_of_false (Option.some_ne_none w).symm fun ⟨⟨nonempty, short, _⟩, _⟩ => by omega
  · rw [if_neg length]
    by_cases digits : ∀ c ∈ token, c ∈ hexDigits
    · rw [hexValue?_of_digits 0 digits, Option.map_some, Option.some_inj, @eq_comm _ w,
        and_iff_right ⟨by omega, by omega, digits⟩]
    · rw [hexValue?_of_not_digits 0 digits, Option.map_none]
      exact iff_of_false (Option.some_ne_none w).symm fun ⟨⟨_, _, allDigits⟩, _⟩ => digits allDigits

/-- Up to four digits fit a word. -/
theorem toNat_of_parseToken {token : List Char} {w : Word} (h : parseToken token = some w) : w.toNat = hexNumber 0 token := by
  obtain ⟨⟨-, short, digits⟩, rfl⟩ := (parseToken_eq_some_iff token w).1 h
  have power : 16 ^ token.length ≤ 16 ^ 4 := Nat.pow_le_pow_right (by decide) short
  have below := hexNumber_lt 0 digits
  exact Nat.mod_eq_of_lt (by omega)

/-- Settles O57: the clauses are the lemmas above. -/
theorem tokenGrammar : Obligations.TokenGrammar := by
  refine ⟨isSeparator_iff, fun a b c => tokensFrom_append_separator [] a b, fun a => tokens_run, fun a => ?accepted,
    fun a w => toNat_of_parseToken, fun a start s separators => ?nothingLoaded⟩
  case accepted =>
    simp only [Option.isSome_iff_exists, parseToken_eq_some_iff, exists_and_left, exists_eq, and_true]
    rfl
  case nothingLoaded =>
    rw [hostLoadProgram, tokens_separators separators]
    rfl

end Sys2Proof.Proofs
end
